-- ==== Sys2Proof/Word.lean ====
section
/-! DEFINITION. The fixed-width words of the engine (spec/00_scope.md R7, R11). -/

namespace Sys2Proof

/-- A 32-bit word: operandA, operandB, the result, `CB` and `ACC` (R7). -/
abbrev Word := BitVec 32

/-- An 8-bit lane of a word: a centroid or an activation (R7, R12). -/
abbrev Byte := BitVec 8

/-- A 16-bit weight-code set: eight 2-bit codes (R7, R24). -/
abbrev WeightSet := BitVec 16

/-- The 64-bit weight-code word: four weight-code sets (R7, R24). -/
abbrev WeightCodeWord := BitVec 64

/-- The primary selector `sel` (R7, R60). -/
abbrev Selector := BitVec 3

/-- The secondary modifier `mod` (R7, R60). -/
abbrev Modifier := BitVec 7

/-- The command word `cmd[9:0]`, selector and modifier packed (spec/30_encoding.md R61). -/
abbrev CommandWord := BitVec 10

end Sys2Proof
end

