-- ==== Sys2Proof/Config.lean ====
section
/-! DEFINITION. What one implementation or one system fixes: the named parameters of
spec/00_scope.md R8. A parameter the spec leaves OPEN is an opaque constant, so that no proof can
know its value; a parameter the spec decides has the value the spec gives it. -/

namespace Sys2Proof.Config

/-- `LATENCY` (R8): cycles from accepting a command to its response. OPEN. The model is untimed and
no rule of the spec depends on timing (spec/70_reset_and_hazards.md R184), so nothing reads it: it
stands here because the spec names it. Log entry 11. -/
opaque LATENCY : Nat

/-- `NUM_ENGINES` (R8): engine instances in a system. OPEN. `EngineArray.reset` reads it. Log entry
11. -/
opaque NUM_ENGINES : Nat

/-- `HOST_OPCODE` (R8): the host opcode that routes an instruction to the engine, RISC-V custom-0.
PRESUMED: the spec marks it as general knowledge; it serves the informative host embedding only
(spec/30_encoding.md R67). Log entry 13. -/
def HOST_OPCODE : BitVec 7 := 0b0001011

/-- `WSTORE_MOD` (R8): the modifier of the storeWeights pseudo-instruction, the spec's decision D8.
Log entry 14. -/
def WSTORE_MOD : Modifier := 0b0000100

/-- `READ_MOD` (R8): the modifier of the read pseudo-instruction. Log entry 14. -/
def READ_MOD : Modifier := 0b0000000

end Sys2Proof.Config
end

