-- ==== Sys2Proof/Syntax.lean ====
section
/-! DEFINITION. Commands and instructions (spec/30_encoding.md), the assembler forms (R71), the
pseudo-instructions (R72) and the informative host instruction (R67), all as plain data. -/

namespace Sys2Proof

/-- What the command channel carries: the command word and the two operands (R63). -/
structure Command where
  cmd : CommandWord
  A   : Word
  B   : Word
  deriving DecidableEq, Repr

/-- A decoded command: one constructor per row of spec/opcode_table.json, with the fields the row
leaves free (the modifier where it is a don't-care, the selector of NOSEL) and the two operands. -/
inductive Instr where
  /-- CB.STORE, spec/40_store.md R81. -/
  | cbStore (mod : Modifier) (A B : Word)
  /-- WC.STORE, spec/40_store.md R83. -/
  | wcStore (mod : Modifier) (A B : Word)
  /-- WC.NOP, spec/40_store.md R85. -/
  | wcNop (mod : Modifier) (A B : Word)
  /-- ACC.RESET, spec/41_mac.md R108. -/
  | accReset (A B : Word)
  /-- ACC.MAC0, spec/41_mac.md R110. -/
  | accMac0 (A B : Word)
  /-- ACC.MAC1, spec/41_mac.md R111. -/
  | accMac1 (A B : Word)
  /-- ACC.MAC2, spec/41_mac.md R112. -/
  | accMac2 (A B : Word)
  /-- ACC.MAC3, spec/41_mac.md R113. -/
  | accMac3 (A B : Word)
  /-- ACC.READ, the selector-2 default arm, spec/41_mac.md R115. -/
  | accRead (mod : Modifier) (A B : Word)
  /-- NOSEL, selectors 3 to 7, spec/42_default.md R140. -/
  | noSel (sel : Selector) (mod : Modifier) (A B : Word)
  deriving DecidableEq, Repr

/-- The ten operations of spec/opcode_table.json, without their fields. -/
inductive Op where
  | cbStore | wcStore | wcNop | accReset | accMac0 | accMac1 | accMac2 | accMac3 | accRead | noSel
  deriving DecidableEq, Repr

/-- The row of spec/opcode_table.json an instruction belongs to. -/
def Instr.op : Instr → Op
  | .cbStore _ _ _ => .cbStore
  | .wcStore _ _ _ => .wcStore
  | .wcNop _ _ _ => .wcNop
  | .accReset _ _ => .accReset
  | .accMac0 _ _ => .accMac0
  | .accMac1 _ _ => .accMac1
  | .accMac2 _ _ => .accMac2
  | .accMac3 _ _ => .accMac3
  | .accRead _ _ _ => .accRead
  | .noSel _ _ _ _ => .noSel

/-- The operand `A` the command carries. -/
def Instr.opA : Instr → Word
  | .cbStore _ A _ | .wcStore _ A _ | .wcNop _ A _ | .accReset A _ | .accMac0 A _ | .accMac1 A _
  | .accMac2 A _ | .accMac3 A _ | .accRead _ A _ | .noSel _ _ A _ => A

/-- The operand `B` the command carries. -/
def Instr.opB : Instr → Word
  | .cbStore _ _ B | .wcStore _ _ B | .wcNop _ _ B | .accReset _ B | .accMac0 _ B | .accMac1 _ B
  | .accMac2 _ B | .accMac3 _ B | .accRead _ _ B | .noSel _ _ _ B => B

/-- One row of spec/opcode_table.json: a command word `w` fits the row when `w` masked by `mask` is
`value` (the table's "match"). Rows are tried in increasing priority (R66). -/
structure OpcodeRow where
  op    : Op
  value : CommandWord
  mask  : CommandWord
  deriving DecidableEq, Repr

/-- The assembler forms of R71, the spec's own notation. A modifier or selector that the text leaves
out is `none`, and so is an operand that the text omits. -/
inductive Asm where
  | cbStore (mod : Option Modifier) (A B : Option Word)
  | wcStore (mod : Option Modifier) (A B : Option Word)
  | wcNop (mod : Option Modifier) (A B : Option Word)
  | accReset (A B : Option Word)
  | accMac (k : Fin 4) (A B : Option Word)
  | accRead (mod : Option Modifier) (A B : Option Word)
  | noSel (sm : Option (Selector × Modifier)) (A B : Option Word)
  /-- The raw form `CFU sel, mod, A, B`, any field values. -/
  | cfu (sel : Selector) (mod : Modifier) (A B : Word)
  deriving DecidableEq, Repr

/-- The pseudo-instructions of R72, which the source calls "a calling convention only". -/
inductive Pseudo where
  | storeCodebook (v : Word)
  | storeWeights (lo hi : Word)
  | reset
  | accumulate (k : Fin 4) (a b : Word)
  | read
  deriving DecidableEq, Repr

/-- The fields of the informative host instruction: a RISC-V R-type word in `HOST_OPCODE` (R67,
PRESUMED, log entry 13). -/
structure HostInsn where
  funct7 : Modifier
  rs2    : BitVec 5
  rs1    : BitVec 5
  funct3 : Selector
  rd     : BitVec 5
  deriving DecidableEq, Repr

end Sys2Proof
end

