-- ==== Sys2Proof/WellFormed.lean ====
section
/-! DEFINITION. Which instructions an encoding exists for: the conditions the decode function puts
on the free fields (spec/30_encoding.md R62, R66). -/

namespace Sys2Proof

/-- The five selector-2 modifiers with a row of their own: ACC.RESET and ACC.MAC0 to ACC.MAC3
(spec/41_mac.md R107). -/
def listedAccModifiers : List Modifier := [0b0001000, 0b0010000, 0b0010001, 0b0010010, 0b0010011]

/-- An instruction is well formed when some command word decodes to it (R62). -/
def Instr.wf : Instr → Bool
  | .cbStore _ _ _ => true
  | .wcStore mod _ _ => mod.getLsbD 2
  | .wcNop mod _ _ => !mod.getLsbD 2
  | .accReset _ _ => true
  | .accMac0 _ _ => true
  | .accMac1 _ _ => true
  | .accMac2 _ _ => true
  | .accMac3 _ _ => true
  | .accRead mod _ _ => !listedAccModifiers.contains mod
  | .noSel sel _ _ _ => decide (3 ≤ sel.toNat)

/-- An assembler line is well formed when a written modifier belongs to the operation named, and an
operand is omitted only "where the operation ignores them" (R71, R64). -/
def Asm.wf : Asm → Bool
  | .cbStore _ _ B => B.isSome
  | .wcStore mod A B => (mod.getD 0b0000100).getLsbD 2 && A.isSome && B.isSome
  | .wcNop mod _ _ => !(mod.getD 0).getLsbD 2
  | .accReset _ _ => true
  | .accMac _ A B => A.isSome && B.isSome
  | .accRead mod _ _ => !listedAccModifiers.contains (mod.getD 0)
  | .noSel sm _ _ => decide (3 ≤ ((sm.map Prod.fst).getD (3 : Selector)).toNat)
  | .cfu _ _ _ _ => true

end Sys2Proof
end

