-- ==== Sys2Proof/Decode.lean ====
section
/-! DEFINITION. The command word (spec/30_encoding.md R61), the decode function (R66), which is total
(R68), the encoder (R62), the opcode table as data, and the informative host embedding (R67).

No command word is illegal or reserved (R68), so the decoder refuses none. -/

namespace Sys2Proof

/-- `cmd = {mod, sel}`: the modifier in bits 9:3, the selector in bits 2:0 (R61). -/
def packCommandWord (sel : Selector) (mod : Modifier) : CommandWord := mod ++ sel

/-- The selector field of a command: `cmd[2:0]` (R61). -/
def Command.sel (c : Command) : Selector := c.cmd.extractLsb' 0 3

/-- The modifier field of a command: `cmd[9:3]` (R61). -/
def Command.mod (c : Command) : Modifier := c.cmd.extractLsb' 3 7

/-- The command with the given four fields (R60, R61). -/
def Command.ofFields (sel : Selector) (mod : Modifier) (A B : Word) : Command :=
  { cmd := packCommandWord sel mod, A := A, B := B }

/-- The decode function of R66, its tests in the order given there. -/
def decode (sel : Selector) (mod : Modifier) (A B : Word) : Instr :=
  if sel = 0b000 then .cbStore mod A B
  else if sel = 0b001 then
    if mod.getLsbD 2 then .wcStore mod A B else .wcNop mod A B
  else if sel = 0b010 then
    if mod = 0b0001000 then .accReset A B
    else if mod = 0b0010000 then .accMac0 A B
    else if mod = 0b0010001 then .accMac1 A B
    else if mod = 0b0010010 then .accMac2 A B
    else if mod = 0b0010011 then .accMac3 A B
    else .accRead mod A B
  else .noSel sel mod A B

/-- Decoding what the command channel carries. -/
def decodeCommand (c : Command) : Instr := decode c.sel c.mod c.A c.B

/-- The command of an instruction numbered as spec/opcode_table.json numbers it: bits 9:0 are the
command word. The table gives the operand words no bits, so both are 0, and bits above 9 are no bits
of a command word (log entry 9). -/
def commandOfTableWord (w : Nat) : Command := { cmd := BitVec.ofNat 10 w, A := 0, B := 0 }

/-- What the decoder reads from a row's word of spec/opcode_table.json. It never refuses (R68). -/
def decodeTableWord (_nbits w : Nat) : Option Instr := some (decodeCommand (commandOfTableWord w))

/-- The selector of an instruction's encoding (R62). -/
def Instr.selector : Instr → Selector
  | .cbStore _ _ _ => 0b000
  | .wcStore _ _ _ | .wcNop _ _ _ => 0b001
  | .accReset _ _ | .accMac0 _ _ | .accMac1 _ _ | .accMac2 _ _ | .accMac3 _ _ | .accRead _ _ _ =>
    0b010
  | .noSel sel _ _ _ => sel

/-- The modifier of an instruction's encoding (R62). -/
def Instr.modifier : Instr → Modifier
  | .cbStore mod _ _ | .wcStore mod _ _ | .wcNop mod _ _ | .accRead mod _ _ | .noSel _ mod _ _ => mod
  | .accReset _ _ => 0b0001000
  | .accMac0 _ _ => 0b0010000
  | .accMac1 _ _ => 0b0010001
  | .accMac2 _ _ => 0b0010010
  | .accMac3 _ _ => 0b0010011

/-- The encoder: the command of an instruction, from the bit map of R62. -/
def encode (i : Instr) : Command := Command.ofFields i.selector i.modifier i.opA i.opB

/-- spec/opcode_table.json's rows in priority order: match and mask as the table has them. The last
row, NOSEL, is the catch-all; ACC.READ comes after the five exact selector-2 rows (R66). -/
def opcodeTable : List OpcodeRow :=
  [ { op := .cbStore,  value := 0x000, mask := 0x007 },
    { op := .wcStore,  value := 0x021, mask := 0x027 },
    { op := .wcNop,    value := 0x001, mask := 0x027 },
    { op := .accReset, value := 0x042, mask := 0x3FF },
    { op := .accMac0,  value := 0x082, mask := 0x3FF },
    { op := .accMac1,  value := 0x08A, mask := 0x3FF },
    { op := .accMac2,  value := 0x092, mask := 0x3FF },
    { op := .accMac3,  value := 0x09A, mask := 0x3FF },
    { op := .accRead,  value := 0x002, mask := 0x007 },
    { op := .noSel,    value := 0x000, mask := 0x000 } ]

/-- Whether a command word fits a row of the opcode table. -/
def OpcodeRow.fits (r : OpcodeRow) (w : CommandWord) : Bool := w &&& r.mask == r.value

/-- The operation of the first row that fits, in priority order (R66). -/
def tableOp (w : CommandWord) : Option Op := (opcodeTable.find? (·.fits w)).map (·.op)

/-- How many of the 1024 command words decode to an operation (R66's count). -/
def countDecoded (o : Op) : Nat :=
  ((List.range 1024).filter fun w => (decodeCommand (commandOfTableWord w)).op == o).length

/-- The host word `{mod, rs2, rs1, sel, rd, HOST_OPCODE}` (R67, PRESUMED, log entry 13). -/
def HostInsn.encode (h : HostInsn) : BitVec 32 :=
  h.funct7 ++ h.rs2 ++ h.rs1 ++ h.funct3 ++ h.rd ++ Config.HOST_OPCODE

/-- The fields of a host word in `HOST_OPCODE`; another opcode is no command of the engine, and what
the host does with it is the host's own (R67, log entry 13). -/
def HostInsn.decode (w : BitVec 32) : Option HostInsn :=
  if w.extractLsb' 0 7 = Config.HOST_OPCODE then
    some { funct7 := w.extractLsb' 25 7, rs2 := w.extractLsb' 20 5, rs1 := w.extractLsb' 15 5,
           funct3 := w.extractLsb' 12 3, rd := w.extractLsb' 7 5 }
  else none

/-- The command a host instruction sends, given the values of its two source registers: rs1 gives
`A`, rs2 gives `B` (R67). -/
def HostInsn.command (h : HostInsn) (rs1Value rs2Value : Word) : Command :=
  Command.ofFields h.funct3 h.funct7 rs1Value rs2Value

end Sys2Proof
end

