-- ==== Sys2Proof/Machine/State.lean ====
section
/-! DEFINITION. The engine's state as plain data: the three registers (spec/10_state.md R20), the
response it may be holding (spec/70_reset_and_hazards.md R182), and the two channels of its
interface (spec/30_encoding.md R63). -/

namespace Sys2Proof.Machine

/-- What the host drives on the interface in one turn of the engine (spec/30_encoding.md R63,
spec/70_reset_and_hazards.md R180). Log entries 2 and 3. -/
structure HostInput where
  /-- The `reset` port: the host may assert hardware reset at any time (R180). -/
  reset    : Bool
  /-- The command channel: `some c` is `cmd_valid` with the payload `c`, `none` is no command. -/
  cmd      : Option Command
  /-- `rsp_ready`: the host is ready to take a response. -/
  rspReady : Bool
  deriving DecidableEq, Repr

/-- The state of the engine and of its interface. -/
structure State where
  /-- Codebook: four signed 8-bit centroids, byte i = centroid i (R23). -/
  CB  : Word
  /-- WeightCodeWord: four 16-bit weight-code sets (R24). -/
  WCW : WeightCodeWord
  /-- Accumulator, signed two's complement, wraps modulo 2^32 (R25, R26). -/
  ACC : Word
  /-- The response of the one outstanding command: `none` when the engine is idle (R182). -/
  held : Option Word
  /-- The model's own record of the words the response channel has transferred, oldest first
  (R63). No command reads it. Log entry 1. -/
  responses : List Word
  /-- What the host drives in the turns to come, the next turn first. Log entry 2. -/
  inputs : List HostInput
  deriving DecidableEq, Repr

/-- What the next turn of the interface does: at most one transfer (R63, R182). -/
inductive Turn where
  /-- No reset and no transfer. -/
  | quiet
  /-- Hardware reset is asserted. -/
  | reset
  /-- The held response is transferred to the host. -/
  | respond (r : Word)
  /-- The command is accepted. -/
  | accept (c : Command)
  deriving DecidableEq, Repr

/-- Faults: none. "There is no error taxonomy: the unit never raises a fault"
(spec/60_exceptions.md R150), and a model must not add one (R152). With no constructor, that no step
faults holds by the type. Safe: nothing is stopped. Log entry 10. -/
inductive Fault where
  deriving DecidableEq, Repr

/-- Refusals. No meaning refuses (R152, log entry 10). -/
inductive Refusal where
  /-- Raised by an arm of `exec` whose instruction has no meaning yet. No arm does. Safe: the machine
  stops where the hardware goes on. -/
  | notModelled (mnemonic : String)
  deriving DecidableEq, Repr

/-- The machine right after hardware reset: the three registers are 0 and no command is in flight
(spec/70_reset_and_hazards.md R170, the spec's decision D1, log entry 5). Nothing has been
transferred and the host drives nothing (the model's own fields, log entries 1, 2 and 15). -/
def State.reset : State :=
  { CB := 0, WCW := 0, ACC := 0, held := none, responses := [], inputs := [] }

end Sys2Proof.Machine
end

