-- ==== Sys2Proof/Machine/Ops.lean ====
section
/-! DEFINITION. The named operations over the registers and over the interface. Every write of a
register and every transfer goes through one of these.

There is no memory (spec/20_memory.md R40) and no trap entry or return (spec/60_exceptions.md R155),
so no operation for either. -/

namespace Sys2Proof.Machine

/-- Write all 32 bits of `CB`: no partial update (spec/10_state.md R23, spec/20_memory.md R44). -/
def State.setCB (s : State) (v : Word) : State := { s with CB := v }

/-- Write all 64 bits of `WCW` in one step (R24, R44, R45). -/
def State.setWCW (s : State) (v : WeightCodeWord) : State := { s with WCW := v }

/-- Write all 32 bits of `ACC` (R25, R44). -/
def State.setACC (s : State) (v : Word) : State := { s with ACC := v }

/-- `result <- v`: the engine holds the response of the command it has just run, until the host takes
it (spec/00_scope.md R10, spec/70_reset_and_hazards.md R182). -/
def State.result (s : State) (v : Word) : State := { s with held := some v }

/-- `cmd_ready`: the engine accepts a command only while no response is outstanding (R182). -/
def State.cmdReady (s : State) : Bool := s.held.isNone

/-- `rsp_valid`: the engine offers the response it holds (R63, R182). -/
def State.rspValid (s : State) : Bool := s.held.isSome

/-- The turn is over: the host's next input comes up. -/
def State.endTurn (s : State) : State := { s with inputs := s.inputs.tail }

/-- The response channel transfers the word `r`, and the engine is idle (R63, R182). -/
def State.transferResponse (s : State) (r : Word) : State :=
  { s with held := none, responses := s.responses ++ [r] }

/-- Hardware reset: the registers take their reset values, and a command in flight is abandoned
without a response (spec/70_reset_and_hazards.md R170, R172; log entries 5 and 6). What was
transferred before stays transferred, and what the host drives next is the host's. -/
def State.hardwareReset (s : State) : State :=
  { State.reset with responses := s.responses, inputs := s.inputs }

/-- What the next turn does. Reset dominates (R172). A held response can only be transferred, and only
when the host is ready. An idle engine can only accept a command (R63, R182; log entries 3 and 4). -/
def State.turn (s : State) : Turn :=
  match s.inputs with
  | [] => .quiet
  | inp :: _ =>
    if inp.reset then .reset
    else match s.held with
      | some r => if inp.rspReady then .respond r else .quiet
      | none =>
        match inp.cmd with
        | some c => .accept c
        | none => .quiet

/-- The host input that offers a command and nothing else. -/
def HostInput.offer (c : Command) : HostInput := { reset := false, cmd := some c, rspReady := false }

/-- The host input that takes a response and nothing else. -/
def HostInput.take : HostInput := { reset := false, cmd := none, rspReady := true }

/-- The host input that asserts hardware reset. -/
def HostInput.assertReset : HostInput := { reset := true, cmd := none, rspReady := false }

end Sys2Proof.Machine
end

