-- ==== Sys2Proof/Machine/Default.lean ====
section
/-! DEFINITION. The fallback for the unassigned selectors 3 to 7 (spec/42_default.md). -/

namespace Sys2Proof.Machine

/-- NOSEL (R140): no register changes, `result <- 0`, for every modifier and operand. -/
def execNoSel (_sel : Selector) (_mod : Modifier) (_A _B : Word) (s : State) :
    Host.Outcome State Fault Refusal :=
  .next (s.result 0)

end Sys2Proof.Machine
end

