-- ==== Sys2Proof/Machine/Flags.lean ====
section
/-! DEFINITION. The engine has no flags, condition codes or predicates (spec/10_state.md R29). What
stands in their place is the overflow rule of the accumulator: it wraps modulo 2^32, with no
saturation and no signal (R26, spec/41_mac.md R106). -/

namespace Sys2Proof.Machine

/-- `ACC +_32 trunc_32(m)` for an exact integer `m` (R106). -/
def wrapAdd (acc : Word) (m : Int) : Word := acc + BitVec.ofInt 32 m

end Sys2Proof.Machine
end

