-- ==== Sys2Proof/Machine/Operands.lean ====
section
/-! DEFINITION. The operand forms: byte lanes, weight-code sets, codes and centroids, and the MAC
datapath as pure functions (spec/00_scope.md R12, spec/20_memory.md R41, spec/41_mac.md R100 to
R105). -/

namespace Sys2Proof.Machine

/-- `byte_n(w) = w[8n+7 : 8n]`: lane 0 is the least significant byte (R12, R41). -/
def byteLane (w : Word) (n : Fin 4) : Byte := w.extractLsb' (8 * n.val) 8

/-- `set_k(W) = W[16k+15 : 16k]` (R12, R100). -/
def weightSet (W : WeightCodeWord) (k : Fin 4) : WeightSet := W.extractLsb' (16 * k.val) 16

/-- `code_n(s) = unsigned(s[2n+1 : 2n])`, an index 0..3 (R12, R101). -/
def code (s : WeightSet) (n : Fin 8) : Fin 4 :=
  ⟨(s.extractLsb' (2 * n.val) 2).toNat, (s.extractLsb' (2 * n.val) 2).isLt⟩

/-- The virtual weight of code position `n`: the centroid its code selects (R101). -/
def virtualWeight (CB : Word) (s : WeightSet) (n : Fin 8) : Byte := byteLane CB (code s n)

/-- The 8-bit × 8-bit multiplier: the exact integer product of two signed bytes (R103). -/
def product (x y : Byte) : Int := x.toInt * y.toInt

/-- One tap: the virtual weight of position `n` times byte `i` of an operand word (R101, R102). -/
def tap (CB : Word) (s : WeightSet) (n : Fin 8) (w : Word) (i : Fin 4) : Int :=
  product (virtualWeight CB s n) (byteLane w i)

/-- `MAC(A, B, CB, s)`: positions 0..3 pair with the bytes of `A`, positions 4..7 with the bytes of
`B`; the sum is exact (R104, R105). -/
def mac (A B CB : Word) (s : WeightSet) : Int :=
  (tap CB s 0 A 0 + tap CB s 1 A 1 + tap CB s 2 A 2 + tap CB s 3 A 3)
    + (tap CB s 4 B 0 + tap CB s 5 B 1 + tap CB s 6 B 2 + tap CB s 7 B 3)

/-- `{B, A}`: the weight-code word with `B` in the high half (spec/40_store.md R83). -/
def weightCodeWord (lo hi : Word) : WeightCodeWord := hi ++ lo

end Sys2Proof.Machine
end

