-- ==== Sys2Proof/Machine/Mac.lean ====
section
/-! DEFINITION. The accumulator operations, selector 2 (spec/41_mac.md). -/

namespace Sys2Proof.Machine

/-- The shared body of ACC.MAC0 to ACC.MAC3 for weight-code set `k`: one atomic read-modify-write of
`ACC`, whose new value is the result (R105, R106, spec/20_memory.md R52). -/
def State.accumulate (s : State) (k : Fin 4) (A B : Word) : State :=
  let t := s.setACC (wrapAdd s.ACC (mac A B s.CB (weightSet s.WCW k)))
  t.result t.ACC

/-- ACC.RESET (R108): `ACC <- 0; result <- ACC`. It is a command, not the hardware reset. -/
def execAccReset (_A _B : Word) (s : State) : Host.Outcome State Fault Refusal :=
  let t := s.setACC 0
  .next (t.result t.ACC)

/-- ACC.MAC0 (R110): weight-code set 0, `WCW[15:0]`. -/
def execAccMac0 (A B : Word) (s : State) : Host.Outcome State Fault Refusal :=
  .next (s.accumulate 0 A B)

/-- ACC.MAC1 (R111): weight-code set 1, `WCW[31:16]`. -/
def execAccMac1 (A B : Word) (s : State) : Host.Outcome State Fault Refusal :=
  .next (s.accumulate 1 A B)

/-- ACC.MAC2 (R112): weight-code set 2, `WCW[47:32]`. -/
def execAccMac2 (A B : Word) (s : State) : Host.Outcome State Fault Refusal :=
  .next (s.accumulate 2 A B)

/-- ACC.MAC3 (R113): weight-code set 3, `WCW[63:48]`. -/
def execAccMac3 (A B : Word) (s : State) : Host.Outcome State Fault Refusal :=
  .next (s.accumulate 3 A B)

/-- ACC.READ (R115): `result <- ACC`, no register changes. Every unlisted modifier reads alike. -/
def execAccRead (_mod : Modifier) (_A _B : Word) (s : State) : Host.Outcome State Fault Refusal :=
  .next (s.result s.ACC)

end Sys2Proof.Machine
end

