-- ==== Sys2Proof/Machine/Store.lean ====
section
/-! DEFINITION. The register loads, selectors 0 and 1 (spec/40_store.md). -/

namespace Sys2Proof.Machine

/-- CB.STORE (R81): `CB <- B; result <- CB`, for every modifier. `A` is ignored. -/
def execCbStore (_mod : Modifier) (_A B : Word) (s : State) : Host.Outcome State Fault Refusal :=
  let t := s.setCB B
  .next (t.result t.CB)

/-- WC.STORE (R83): `WCW <- {B, A}; result <- WCW[31:0]`. The low half as the result is
spec/90_conflicts.md C2 and decision D6 (UNVERIFIED, log entry 8). -/
def execWcStore (_mod : Modifier) (A B : Word) (s : State) : Host.Outcome State Fault Refusal :=
  let t := s.setWCW (weightCodeWord A B)
  .next (t.result (t.WCW.extractLsb' 0 32))

/-- WC.NOP (R85): no register changes, `result <- 0`. -/
def execWcNop (_mod : Modifier) (_A _B : Word) (s : State) : Host.Outcome State Fault Refusal :=
  .next (s.result 0)

end Sys2Proof.Machine
end

