-- ==== Sys2Proof/Machine/Dispatch.lean ====
section
/-! DEFINITION. One arm per operation (spec/42_default.md R145): each is one call of its meaning. -/

namespace Sys2Proof.Machine

def exec (i : Instr) (s : State) : Host.Outcome State Fault Refusal :=
  match i with
  | .cbStore mod A B => Sys2Proof.Machine.execCbStore mod A B s
  | .wcStore mod A B => Sys2Proof.Machine.execWcStore mod A B s
  | .wcNop mod A B => Sys2Proof.Machine.execWcNop mod A B s
  | .accReset A B => Sys2Proof.Machine.execAccReset A B s
  | .accMac0 A B => Sys2Proof.Machine.execAccMac0 A B s
  | .accMac1 A B => Sys2Proof.Machine.execAccMac1 A B s
  | .accMac2 A B => Sys2Proof.Machine.execAccMac2 A B s
  | .accMac3 A B => Sys2Proof.Machine.execAccMac3 A B s
  | .accRead mod A B => Sys2Proof.Machine.execAccRead mod A B s
  | .noSel sel mod A B => Sys2Proof.Machine.execNoSel sel mod A B s

end Sys2Proof.Machine
end

