-- ==== Sys2Proof/Machine/Step.lean ====
section
/-! DEFINITION. One step of the machine is one turn of its interface. The step that accepts a command
runs it whole, registers and response, as one transition (spec/20_memory.md R45,
spec/70_reset_and_hazards.md R182). -/

namespace Sys2Proof.Machine

/-- One turn: nothing, hardware reset, a response transfer, or the acceptance of a command, which is
decoded and executed (R63, R172, R182). -/
def step (s : State) : Host.Outcome State Fault Refusal :=
  match s.turn with
  | .quiet => .next s.endTurn
  | .reset => .next s.endTurn.hardwareReset
  | .respond r => .next (s.endTurn.transferResponse r)
  | .accept c => exec (decodeCommand c) s.endTurn

/-- `s` with the command of a row's word offered in the very next turn, and with no response
outstanding, so that the engine accepts it. This stands for the host driving the command (log entry
15). -/
def State.withFetchWord (s : State) (_nbits w : Nat) : State :=
  { s with held := none, inputs := HostInput.offer (commandOfTableWord w) :: s.inputs }

end Sys2Proof.Machine
end

