-- ==== Sys2Proof/Machine/Assembler.lean ====
section
/-! DEFINITION. The assembler forms (spec/30_encoding.md R71) and the pseudo-instructions (R72): the
commands they stand for. Both are the spec's own notation, decisions D7 and D8 (log entry 14). -/

namespace Sys2Proof

/-- The command an assembler line stands for: a modifier or selector left out takes R71's value, an
operand left out is 0. -/
def Asm.command : Asm → Command
  | .cbStore mod A B => Command.ofFields 0 (mod.getD 0) (A.getD 0) (B.getD 0)
  | .wcStore mod A B => Command.ofFields 1 (mod.getD 0b0000100) (A.getD 0) (B.getD 0)
  | .wcNop mod A B => Command.ofFields 1 (mod.getD 0) (A.getD 0) (B.getD 0)
  | .accReset A B => Command.ofFields 2 0b0001000 (A.getD 0) (B.getD 0)
  | .accMac k A B => Command.ofFields 2 (0b0010000 + BitVec.ofNat 7 k.val) (A.getD 0) (B.getD 0)
  | .accRead mod A B => Command.ofFields 2 (mod.getD 0) (A.getD 0) (B.getD 0)
  | .noSel sm A B =>
    Command.ofFields ((sm.map Prod.fst).getD 3) ((sm.map Prod.snd).getD 0) (A.getD 0) (B.getD 0)
  | .cfu sel mod A B => Command.ofFields sel mod A B

/-- The operation an assembler line names; the raw form names none. -/
def Asm.op : Asm → Option Op
  | .cbStore _ _ _ => some .cbStore
  | .wcStore _ _ _ => some .wcStore
  | .wcNop _ _ _ => some .wcNop
  | .accReset _ _ => some .accReset
  | .accMac 0 _ _ => some .accMac0
  | .accMac 1 _ _ => some .accMac1
  | .accMac 2 _ _ => some .accMac2
  | .accMac 3 _ _ => some .accMac3
  | .accRead _ _ _ => some .accRead
  | .noSel _ _ _ => some .noSel
  | .cfu _ _ _ _ => none

/-- The expansion of a pseudo-instruction (R72). -/
def Pseudo.expand : Pseudo → Command
  | .storeCodebook v => Command.ofFields 0 0 0 v
  | .storeWeights lo hi => Command.ofFields 1 Config.WSTORE_MOD lo hi
  | .reset => Command.ofFields 2 0b0001000 0 0
  | .accumulate k a b => Command.ofFields 2 (0b0010000 + BitVec.ofNat 7 k.val) a b
  | .read => Command.ofFields 2 Config.READ_MOD 0 0

end Sys2Proof
end

