-- ==== Sys2Proof/Machine/EngineArray.lean ====
section
/-! DEFINITION. A system of several engine instances: each has its own registers, its own command
stream and its own responses, and two instances share no state (spec/10_state.md R30,
spec/60_exceptions.md R163, decision D12; log entry 12). -/

namespace Sys2Proof.Machine

/-- The engines of a system, each a whole `State`. -/
abbrev EngineArray := List State

/-- `NUM_ENGINES` engines, each right after hardware reset (spec/00_scope.md R8, R170). -/
def EngineArray.reset : EngineArray := List.replicate Config.NUM_ENGINES State.reset

/-- Engine `k` takes one step; an index with no engine changes nothing. Which engine moves next is the
caller's choice: the instances are independent. -/
def EngineArray.stepAt (sys : EngineArray) (k : Nat) : Host.Outcome EngineArray Fault Refusal :=
  match sys[k]? with
  | none => .next sys
  | some s =>
    match step s with
    | .next t => .next (sys.set k t)
    | .fault r => .fault r
    | .refused r => .refused r

end Sys2Proof.Machine
end

