-- ==== Sys2Proof/Safety.lean ====
section
/-! DEFINITION. The terms the claims use: the source's contract `execute` as an independent reference
(spec/10_state.md R33, spec/42_default.md R145), written with the source's own shift-and-mask forms
and not with the model's operations, sequences of commands, and what a safe run is. -/

namespace Sys2Proof

namespace Spec

/-- The state of the source's contract: the record `(CB, WCW, ACC)` (R33). -/
structure Regs where
  CB  : BitVec 32
  WCW : BitVec 64
  ACC : BitVec 32
  deriving DecidableEq, Repr

/-- "`(word >> (n*8)) & 0xFF`, interpreted as signed 8-bit": masking, then manual sign-extension
(spec/00_scope.md R11, R12). -/
def sbyte (w : BitVec 32) (n : Nat) : Int :=
  let b := ((w >>> (n * 8)) &&& 0xFF).toNat
  if b < 128 then (b : Int) else (b : Int) - 256

/-- "`(word >> (n*2)) & 0b11`", an unsigned index (R12). -/
def code (s : BitVec 16) (n : Nat) : Nat := ((s >>> (n * 2)) &&& 0b11).toNat

/-- "`(word >> (n*16)) & 0xFFFF`" (R12). -/
def set (W : BitVec 64) (k : Nat) : BitVec 16 := ((W >>> (k * 16)) &&& 0xFFFF).setWidth 16

/-- "`(operandB << 32) | operandA`" on 64 bits (spec/30_encoding.md R72, spec/40_store.md R84). -/
def pair (lo hi : BitVec 32) : BitVec 64 := (hi.setWidth 64 <<< 32) ||| lo.setWidth 64

/-- The MAC function of spec/41_mac.md R105. -/
def mac (A B CB : BitVec 32) (s : BitVec 16) : Int :=
  ((List.range 4).map fun i => sbyte CB (code s i) * sbyte A i).sum
    + ((List.range 4).map fun i => sbyte CB (code s (i + 4)) * sbyte B i).sum

/-- The accumulate step of R106: the exact integer sum of the signed accumulator and the MAC value,
kept modulo 2^32. -/
def accumulate (k : Nat) (A B : BitVec 32) (st : Regs) : BitVec 32 :=
  BitVec.ofInt 32 (st.ACC.toInt + mac A B st.CB (set st.WCW k))

/-- The complete step function of R145: the result and the next registers, decided on the numbers the
selector and the modifier denote. -/
def execute (sel : BitVec 3) (mod : BitVec 7) (A B : BitVec 32) (st : Regs) : BitVec 32 × Regs :=
  match sel.toNat with
  | 0 => (B, { st with CB := B })
  | 1 => if mod &&& 0b100 = 0 then (0, st) else (A, { st with WCW := pair A B })
  | 2 =>
    if mod.toNat = 8 then (0, { st with ACC := 0 })
    else if 16 ≤ mod.toNat ∧ mod.toNat ≤ 19 then
      let acc := accumulate (mod.toNat % 4) A B st
      (acc, { st with ACC := acc })
    else (st.ACC, st)
  | _ => (0, st)

/-- The registers hardware reset leaves (spec/70_reset_and_hazards.md R170, decision D1, log entry
5). -/
def resetRegs : Regs := { CB := 0, WCW := 0, ACC := 0 }

/-- One command through the contract. -/
def executeCommand (c : Command) (st : Regs) : BitVec 32 × Regs :=
  execute c.sel c.mod c.A c.B st

/-- A sequence of commands through the contract: the results in order, and the last registers. -/
def executeAll : List Command → Regs → List (BitVec 32) × Regs
  | [], st => ([], st)
  | c :: cs, st =>
    let (r, st1) := executeCommand c st
    let (rs, st2) := executeAll cs st1
    (r :: rs, st2)

end Spec

namespace Machine

/-- The three registers of a state, as the contract's record. -/
def State.regs (s : State) : Spec.Regs := { CB := s.CB, WCW := s.WCW, ACC := s.ACC }

/-- `s` with the three registers replaced. -/
def State.withRegs (s : State) (r : Spec.Regs) : State :=
  { s with CB := r.CB, WCW := r.WCW, ACC := r.ACC }

/-- The two turns of a command whose response is taken at once. -/
def transactions (cs : List Command) : List HostInput :=
  cs.flatMap fun c => [HostInput.offer c, HostInput.take]

/-- The commands that transfer when the host drives `ins` without reset, the engine starting idle
(`false`) or holding a response (`true`): an idle engine takes the command offered, a holding engine
takes none until the host is ready for its response (spec/30_encoding.md R63,
spec/70_reset_and_hazards.md R182). -/
def acceptedCommands : Bool → List HostInput → List Command
  | _, [] => []
  | true, inp :: rest => acceptedCommands (!inp.rspReady) rest
  | false, inp :: rest =>
    match inp.cmd with
    | none => acceptedCommands false rest
    | some c => c :: acceptedCommands true rest

/-- The reference of the interface for EVERY schedule of the host, resets included: given the
outstanding response and the registers, the words transferred in order, the response then outstanding
and the registers. An asserted reset restarts the registers and drops the outstanding response (R172);
a ready host takes it; an idle engine runs the command offered through the contract (R63, R182). -/
def scheduleRun : Option Word → Spec.Regs → List HostInput → List Word × Option Word × Spec.Regs
  | out, st, [] => ([], out, st)
  | out, st, inp :: rest =>
    if inp.reset then scheduleRun none Spec.resetRegs rest
    else match out, inp.rspReady, inp.cmd with
      | some r, true, _ =>
        let (words, last, st') := scheduleRun none st rest
        (r :: words, last, st')
      | some r, false, _ => scheduleRun (some r) st rest
      | none, _, none => scheduleRun none st rest
      | none, _, some c =>
        scheduleRun (some (Spec.executeCommand c st).1) (Spec.executeCommand c st).2 rest

/-- `n` steps, stopping at the first fault or refusal: the host's `Core.run` of this machine
(`Laws/Step.lean`, `core_run_eq_runSteps`), on the model's own types. -/
def runSteps : Nat → State → Host.Outcome State Fault Refusal
  | 0, s => .next s
  | n + 1, s =>
    match step s with
    | .next t => runSteps n t
    | .fault r => .fault r
    | .refused r => .refused r

/-- Instructions run one after another by their meanings, stopping at the first fault or refusal. -/
def execAll : List Instr → State → Host.Outcome State Fault Refusal
  | [], s => .next s
  | i :: is, s =>
    match exec i s with
    | .next t => execAll is t
    | .fault r => .fault r
    | .refused r => .refused r

/-- The ACC.MACk instruction of a weight-code set. -/
def macInstr (k : Fin 4) (A B : Word) : Instr :=
  match k with
  | 0 => .accMac0 A B
  | 1 => .accMac1 A B
  | 2 => .accMac2 A B
  | 3 => .accMac3 A B

/-- The MAC contributions of a sequence of instructions, in order, each under the codebook and the
weight-code word it finds (spec/41_mac.md R114; a load in between does not recompute earlier sums,
spec/40_store.md R81, R83). -/
def contributions : List Instr → BitVec 32 → BitVec 64 → List Int
  | [], _, _ => []
  | .cbStore _ _ B :: is, _, WCW => contributions is B WCW
  | .wcStore _ A B :: is, CB, _ => contributions is CB (Spec.pair A B)
  | .wcNop _ _ _ :: is, CB, WCW => contributions is CB WCW
  | .accReset _ _ :: is, CB, WCW => contributions is CB WCW
  | .accMac0 A B :: is, CB, WCW =>
    Spec.mac A B CB (Spec.set WCW 0) :: contributions is CB WCW
  | .accMac1 A B :: is, CB, WCW =>
    Spec.mac A B CB (Spec.set WCW 1) :: contributions is CB WCW
  | .accMac2 A B :: is, CB, WCW =>
    Spec.mac A B CB (Spec.set WCW 2) :: contributions is CB WCW
  | .accMac3 A B :: is, CB, WCW =>
    Spec.mac A B CB (Spec.set WCW 3) :: contributions is CB WCW
  | .accRead _ _ _ :: is, CB, WCW => contributions is CB WCW
  | .noSel _ _ _ _ :: is, CB, WCW => contributions is CB WCW

/-- A held response reflects the registers as committed: it is 0, or the codebook, or the low half of
the weight-code word, or the accumulator ("The register update is committed when the command is
accepted, so the held response already reflects it", spec/70_reset_and_hazards.md R182). -/
def State.HeldReflectsRegisters (s : State) : Prop :=
  ∀ r, s.held = some r → r = 0 ∨ r = s.CB ∨ r = s.WCW.extractLsb' 0 32 ∨ r = s.ACC

/-- A run is safe when it stops with no fault and no refusal: `n` steps answer a next state
(spec/60_exceptions.md R150, R152). -/
def SafeRun (n : Nat) (s : State) : Prop := ∃ t, runSteps n s = .next t

end Machine

end Sys2Proof
end

