-- ==== Sys2Proof/Certificates/Slice0/Obligations.lean ====
section
/-! DEFINITION. The statements for the provers. Each docstring names the rule of spec/ it formalises,
or the spec's or the model's own decision it rests on. `Sys2Proof.Spec` (Safety.lean) is the
independent reference, written with the source's shift-and-mask forms. -/

open Sys2Proof Sys2Proof.Machine

/-! ### Shapes shared by several statements -/

/-- The accumulate step on the model's state, with the reference MAC function, for a set given as a
value: the new `ACC` is the result, and nothing else changes. -/
def Sys2Proof.Machine.State.accumulated (s : State) (A B : Word) (set : BitVec 16) : State :=
  { s with
    ACC := BitVec.ofInt 32 (s.ACC.toInt + Spec.mac A B s.CB set)
    held := some (BitVec.ofInt 32 (s.ACC.toInt + Spec.mac A B s.CB set)) }

/-- What R110 to R113 say of one accumulate instruction: its command word; its effect with the set
it reads; where that set comes from right after a WC.STORE of `lo, hi`, and after any further commands
while that is the last WC.STORE; and the corner cases. -/
def Sys2Proof.Machine.AccumulatesWithSet (ins : Word → Word → Instr) (cmd : CommandWord)
    (setOf : BitVec 64 → BitVec 16) (setFrom : Word → Word → BitVec 16) : Prop :=
  (∀ A B, decodeCommand { cmd := cmd, A := A, B := B } = ins A B ∧
    encode (ins A B) = { cmd := cmd, A := A, B := B }) ∧
  (∀ A B s, exec (ins A B) s = .next (s.accumulated A B (setOf s.WCW))) ∧
  (∀ mod lo hi A B s, ∃ t, execAll [.wcStore mod lo hi, ins A B] s = .next t ∧
    t.ACC = BitVec.ofInt 32 (s.ACC.toInt + Spec.mac A B s.CB (setFrom lo hi))) ∧
  (∀ mod lo hi (between : List Instr) s, (∀ i ∈ between, i.op ≠ .wcStore) →
    ∃ t, execAll (.wcStore mod lo hi :: between) s = .next t ∧
      ∀ A B, exec (ins A B) t = .next (t.accumulated A B (setFrom lo hi))) ∧
  (∀ A B s, s.CB = 0 → exec (ins A B) s = .next { s with held := some s.ACC }) ∧
  (∀ s, exec (ins 0 0) s = .next { s with held := some s.ACC }) ∧
  (∀ s, s.CB = 0x80808080 → exec (ins 0x80808080 0x80808080) s =
    .next { s with ACC := s.ACC + 0x00020000, held := some (s.ACC + 0x00020000) }) ∧
  (∀ s, s.CB = 0x80808080 → exec (ins 0x7F7F7F7F 0x7F7F7F7F) s =
    .next { s with ACC := s.ACC + 0xFFFE0400, held := some (s.ACC + 0xFFFE0400) })

/-! ### Encoding and decoding -/

/-- R66 and R107: every branch of the decode function, the fallbacks included, and how many of the
1024 command words reach each operation. The spec marks the counts (and R107) as derived, and they
number the command words by the packing of decision D3, read through `commandOfTableWord` (log entry
9). -/
def Obligations.DecodeFollowsDispatchTable : Prop :=
  (∀ (sel : Selector) (mod : Modifier) (A B : Word),
    (sel = 0b000 → decode sel mod A B = .cbStore mod A B) ∧
    (sel = 0b001 → mod.getLsbD 2 = true → decode sel mod A B = .wcStore mod A B) ∧
    (sel = 0b001 → mod.getLsbD 2 = false → decode sel mod A B = .wcNop mod A B) ∧
    (sel = 0b010 → mod = 0b0001000 → decode sel mod A B = .accReset A B) ∧
    (sel = 0b010 → mod = 0b0010000 → decode sel mod A B = .accMac0 A B) ∧
    (sel = 0b010 → mod = 0b0010001 → decode sel mod A B = .accMac1 A B) ∧
    (sel = 0b010 → mod = 0b0010010 → decode sel mod A B = .accMac2 A B) ∧
    (sel = 0b010 → mod = 0b0010011 → decode sel mod A B = .accMac3 A B) ∧
    (sel = 0b010 → mod ≠ 0b0001000 → (mod.toNat < 16 ∨ 19 < mod.toNat) →
      decode sel mod A B = .accRead mod A B) ∧
    (3 ≤ sel.toNat → decode sel mod A B = .noSel sel mod A B)) ∧
  countDecoded .cbStore = 128 ∧ countDecoded .wcStore = 64 ∧ countDecoded .wcNop = 64 ∧
  countDecoded .accReset = 1 ∧ countDecoded .accMac0 = 1 ∧ countDecoded .accMac1 = 1 ∧
  countDecoded .accMac2 = 1 ∧ countDecoded .accMac3 = 1 ∧ countDecoded .accRead = 123 ∧
  countDecoded .noSel = 640

/-- The decoder gives every command word the operation of the first row of spec/opcode_table.json
that fits, in priority order (R66). The packing is the spec's decision D3 (log entry 9). -/
def Obligations.DecodeAgreesWithOpcodeTable : Prop :=
  ∀ c : Command, tableOp c.cmd = some (decodeCommand c).op

/-- Decode and encode agree: no field and no operand of a well-formed instruction is dropped. The
packing is the spec's decision D3 (R61, log entry 9). -/
def Obligations.DecodeOfEncodeIsInstruction : Prop :=
  ∀ i : Instr, i.wf = true → decodeCommand (encode i) = i

/-- The other direction: every command decodes to a well-formed instruction (none is refused, R68),
and encoding that gives the command back. The packing is decision D3 (log entry 9). -/
def Obligations.EncodeOfDecodeIsCommand : Prop :=
  ∀ c : Command, (decodeCommand c).wf = true ∧ encode (decodeCommand c) = c

/-- A few command words of spec/95_test_vectors.md 2.1 decode to the operation named there, read
through `decodeTableWord`: that it takes bits 9:0 as the command word (packed by decision D3) and gives
both operands the value 0 is the model's own choice (DESIGN CHOICE, log entry 9). -/
def Obligations.SampleCommandWordsDecode : Prop :=
  decodeTableWord 16 0b1010101000 = some (.cbStore 0b1010101 0 0) ∧
  decodeTableWord 16 0b0010100001 = some (.wcStore 0b0010100 0 0) ∧
  decodeTableWord 16 0b1111011001 = some (.wcNop 0b1111011 0 0) ∧
  decodeTableWord 16 0b0001000010 = some (.accReset 0 0) ∧
  decodeTableWord 16 0b0010010010 = some (.accMac2 0 0) ∧
  decodeTableWord 16 0b0010100010 = some (.accRead 0b0010100 0 0) ∧
  decodeTableWord 16 0b1111111111 = some (.noSel 0b111 0b1111111 0 0)

/-- The informative host embedding of R67 (general knowledge, PRESUMED, log entry 13): host words in
custom-0 and their fields correspond one to one, a word of another opcode is no command, and the
command sent carries funct3 as selector, funct7 as modifier, rs1's value as A and rs2's as B. -/
def Obligations.HostWordsRoundTrip : Prop :=
  (∀ h : HostInsn, HostInsn.decode h.encode = some h) ∧
  (∀ (w : BitVec 32) (h : HostInsn), HostInsn.decode w = some h → h.encode = w) ∧
  (∀ w : BitVec 32, HostInsn.decode w = none ↔ w &&& 0x7F ≠ 0b0001011) ∧
  (∀ (h : HostInsn) (a b : Word), decodeCommand (h.command a b) = decode h.funct3 h.funct7 a b)

/-- R71, the spec's decision D7 (log entry 14): a well-formed assembler line assembles to a command of
the operation it names, with its operands as written, each in its own place, and an omitted operand 0;
a modifier or selector that is written is the one sent, and one left out is R71's: modifier 0 for
CB.STORE, WC.NOP and ACC.READ, 0b0000100 for WC.STORE, selector 3 and modifier 0 for NOSEL; the raw
form sends its four fields as they stand. -/
def Obligations.AssemblerLineDecodesToNamedOperation : Prop :=
  (∀ (a : Asm) (o : Op), a.wf = true → a.op = some o → (decodeCommand a.command).op = o) ∧
  (∀ mod A B, decodeCommand (Asm.cbStore mod A B).command =
    .cbStore (mod.getD 0) (A.getD 0) (B.getD 0)) ∧
  (∀ mod A B, (Asm.wcStore mod A B).wf = true →
    decodeCommand (Asm.wcStore mod A B).command =
      .wcStore (mod.getD 0b0000100) (A.getD 0) (B.getD 0)) ∧
  (∀ mod A B, (Asm.wcNop mod A B).wf = true →
    decodeCommand (Asm.wcNop mod A B).command = .wcNop (mod.getD 0) (A.getD 0) (B.getD 0)) ∧
  (∀ A B, decodeCommand (Asm.accReset A B).command = .accReset (A.getD 0) (B.getD 0)) ∧
  (∀ k A B, decodeCommand (Asm.accMac k A B).command = macInstr k (A.getD 0) (B.getD 0)) ∧
  (∀ mod A B, (Asm.accRead mod A B).wf = true →
    decodeCommand (Asm.accRead mod A B).command = .accRead (mod.getD 0) (A.getD 0) (B.getD 0)) ∧
  (∀ A B, decodeCommand (Asm.noSel none A B).command = .noSel 3 0 (A.getD 0) (B.getD 0)) ∧
  (∀ sel mod A B, (Asm.noSel (some (sel, mod)) A B).wf = true →
    decodeCommand (Asm.noSel (some (sel, mod)) A B).command =
      .noSel sel mod (A.getD 0) (B.getD 0)) ∧
  (∀ sel mod A B, (Asm.cfu sel mod A B).command.cmd.toNat = mod.toNat * 8 + sel.toNat ∧
    (Asm.cfu sel mod A B).command.A = A ∧ (Asm.cfu sel mod A B).command.B = B ∧
    decodeCommand (Asm.cfu sel mod A B).command = decode sel mod A B)

/-- R72, the spec's decision D8 (log entry 14): each pseudo-instruction's expansion has the effect
and returns the word R72 names. The word storeWeights returns rests on decision D6 (log entry 8). -/
def Obligations.PseudoInstructionsReturnTheirWords : Prop :=
  ∀ s : State,
    (∀ v, exec (decodeCommand (Pseudo.storeCodebook v).expand) s =
      .next { s with CB := v, held := some v }) ∧
    (∀ lo hi, exec (decodeCommand (Pseudo.storeWeights lo hi).expand) s =
      .next { s with WCW := Spec.pair lo hi, held := some lo }) ∧
    exec (decodeCommand Pseudo.reset.expand) s = .next { s with ACC := 0, held := some 0 } ∧
    (∀ (k : Fin 4) (a b : Word), exec (decodeCommand (Pseudo.accumulate k a b).expand) s =
      .next (s.accumulated a b (Spec.set s.WCW k.val))) ∧
    exec (decodeCommand Pseudo.read.expand) s = .next { s with held := some s.ACC }

/-! ### The datapath -/

/-- R12 and R41: byte lanes, codes and sets are the source's shift-and-mask expressions; a byte is
sign-extended after masking, a code is an unsigned index; lane, set and code 0 are least
significant. -/
def Obligations.LanesAreShiftAndMask : Prop :=
  (∀ (w : Word) (n : Fin 4), (byteLane w n).toInt = Spec.sbyte w n.val ∧
    (byteLane w n).toNat = w.toNat / 2 ^ (8 * n.val) % 256) ∧
  (∀ (s : WeightSet) (n : Fin 8), (code s n).val = Spec.code s n.val ∧
    (code s n).val = s.toNat / 2 ^ (2 * n.val) % 4) ∧
  (∀ (W : WeightCodeWord) (k : Fin 4), weightSet W k = Spec.set W k.val ∧
    (weightSet W k).toNat = W.toNat / 2 ^ (16 * k.val) % 65536) ∧
  (∀ (W : WeightCodeWord) (k : Fin 4) (n : Fin 8),
    (code (weightSet W k) n).val = (W.toNat / 2 ^ (16 * k.val + 2 * n.val)) % 4)

/-- R105: the model's MAC value is the eight-tap dot product of the reference, codes 0..3 with the
bytes of `A` and codes 4..7 with the bytes of `B`. -/
def Obligations.MacIsEightTapDotProduct : Prop :=
  ∀ (A B CB : Word) (s : WeightSet), mac A B CB s = Spec.mac A B CB s

/-- R103, whose range and 16-bit exactness the spec marks as derived: each product lies in
-16256..16384 and is exact in a 16-bit signed result. -/
def Obligations.ProductsFitSixteenBits : Prop :=
  ∀ x y : Byte, -16256 ≤ product x y ∧ product x y ≤ 16384 ∧
    (BitVec.ofInt 16 (product x y)).toInt = product x y

/-- R104: the MAC value is the exact sum of the eight products, it lies in -130048..131072, both
bounds are reached, and it fits in 19 signed bits. -/
def Obligations.MacValueStaysInRange : Prop :=
  (∀ (A B CB : Word) (s : WeightSet),
    mac A B CB s =
      (∑ i : Fin 4, product (virtualWeight CB s (Fin.castLE (by omega) i)) (byteLane A i))
        + (∑ i : Fin 4, product (virtualWeight CB s (Fin.natAdd 4 i)) (byteLane B i)) ∧
    -130048 ≤ mac A B CB s ∧ mac A B CB s ≤ 131072 ∧
    (BitVec.ofInt 19 (mac A B CB s)).toInt = mac A B CB s) ∧
  (∀ s : WeightSet, mac 0x80808080 0x80808080 0x80808080 s = 131072 ∧
    mac 0x7F7F7F7F 0x7F7F7F7F 0x80808080 s = -130048)

/-- R106 and R26: accumulating adds modulo 2^32 for every exact sum, the 32-bit truncation of a MAC
value is the sign extension of its 19 bits, and overflow wraps without saturation. -/
def Obligations.AccumulateWrapsModuloTwoToThe32 : Prop :=
  (∀ (acc : Word) (m : Int), ((wrapAdd acc m).toNat : Int) = ((acc.toNat : Int) + m) % 2 ^ 32) ∧
  (∀ (A B CB : Word) (s : WeightSet),
    BitVec.ofInt 32 (mac A B CB s) = (BitVec.ofInt 19 (mac A B CB s)).signExtend 32) ∧
  (∀ (acc : Word) (m : Int), acc.toInt + m ≤ 2147483647 → -2147483648 ≤ acc.toInt + m →
    (wrapAdd acc m).toInt = acc.toInt + m) ∧
  (∀ (acc : Word) (m : Int), 2147483647 < acc.toInt + m → acc.toInt + m ≤ 4294967295 →
    (wrapAdd acc m).toInt = acc.toInt + m - 4294967296) ∧
  (∀ (acc : Word) (m : Int), acc.toInt + m < -2147483648 → -4294967296 ≤ acc.toInt + m →
    (wrapAdd acc m).toInt = acc.toInt + m + 4294967296)

/-! ### What each command does -/

/-- R81: CB.STORE is selected by every modifier, loads the whole codebook from `B`, returns it, and
changes nothing else; `A` is ignored. The next MAC uses the new codebook and the old `ACC`, and every
later ACC.MACk, whatever commands but a CB.STORE stand between, uses the new codebook with the `WCW`
and the `ACC` it finds. -/
def Obligations.CbStoreLoadsWholeCodebook : Prop :=
  ∀ (mod : Modifier) (A B : Word) (s : State),
    decode 0b000 mod A B = .cbStore mod A B ∧
    exec (.cbStore mod A B) s = .next { s with CB := B, held := some B } ∧
    (∀ (k : Fin 4) (A' B' : Word), ∃ t, execAll [.cbStore mod A B, macInstr k A' B'] s = .next t ∧
      t.CB = B ∧ t.WCW = s.WCW ∧
      t.ACC = BitVec.ofInt 32 (s.ACC.toInt + Spec.mac A' B' B (Spec.set s.WCW k.val))) ∧
    (∀ between : List Instr, (∀ i ∈ between, i.op ≠ .cbStore) →
      ∃ t, execAll (.cbStore mod A B :: between) s = .next t ∧ t.CB = B ∧
        ∀ (k : Fin 4) (A' B' : Word), exec (macInstr k A' B') t = .next { t with
          ACC := BitVec.ofInt 32 (t.ACC.toInt + Spec.mac A' B' B (Spec.set t.WCW k.val))
          held := some
            (BitVec.ofInt 32 (t.ACC.toInt + Spec.mac A' B' B (Spec.set t.WCW k.val))) })

/-- R83: WC.STORE is selected by every modifier with bit 2 set, loads all 64 bits as `{B, A}` and
changes no other register; sets 0 and 1 come from `A`, sets 2 and 3 from `B`. The word it returns,
`A`, is the spec's own decision D6 (spec/90_conflicts.md C2, log entry 8). -/
def Obligations.WcStoreLoadsWholeWeightCodeWord : Prop :=
  ∀ (mod : Modifier) (A B : Word) (s : State),
    (mod.getLsbD 2 = true → decode 0b001 mod A B = .wcStore mod A B) ∧
    exec (.wcStore mod A B) s = .next { s with WCW := Spec.pair A B, held := some A } ∧
    (Spec.pair A B).toNat = B.toNat * 2 ^ 32 + A.toNat ∧
    weightSet (Spec.pair A B) 0 = A.extractLsb' 0 16 ∧
    weightSet (Spec.pair A B) 1 = A.extractLsb' 16 16 ∧
    weightSet (Spec.pair A B) 2 = B.extractLsb' 0 16 ∧
    weightSet (Spec.pair A B) 3 = B.extractLsb' 16 16

/-- R85: WC.NOP is selected by every modifier with bit 2 clear, returns 0 whatever the operands and
the registers are, and changes nothing else. -/
def Obligations.WcNopReturnsZero : Prop :=
  ∀ (mod : Modifier) (A B : Word) (s : State),
    (mod.getLsbD 2 = false → decode 0b001 mod A B = .wcNop mod A B) ∧
    exec (.wcNop mod A B) s = .next { s with held := some 0 }

/-- R108: ACC.RESET is the command word 0x042, clears `ACC` only, returns 0, ignores its operands, and
is idempotent. -/
def Obligations.AccResetClearsOnlyAccumulator : Prop :=
  ∀ (A B : Word) (s : State),
    decodeCommand { cmd := 0x042, A := A, B := B } = .accReset A B ∧
    exec (.accReset A B) s = .next { s with ACC := 0, held := some 0 } ∧
    (∀ A' B', execAll [.accReset A B, .accReset A' B'] s = execAll [.accReset A B] s)

/-- R110: ACC.MAC0, command word 0x082, weight-code set `WCW[15:0]`. That after a WC.STORE this set is
`A[15:0]` is R83's (which the spec marks as derived) and R84's. -/
def Obligations.AccMac0AccumulatesSetZero : Prop :=
  AccumulatesWithSet .accMac0 0x082 (fun W => W.extractLsb' 0 16) (fun lo _ => lo.extractLsb' 0 16)

/-- R111: ACC.MAC1, command word 0x08A, weight-code set `WCW[31:16]`. -/
def Obligations.AccMac1AccumulatesSetOne : Prop :=
  AccumulatesWithSet .accMac1 0x08A (fun W => W.extractLsb' 16 16)
    (fun lo _ => lo.extractLsb' 16 16)

/-- R112: ACC.MAC2, command word 0x092, weight-code set `WCW[47:32]`. -/
def Obligations.AccMac2AccumulatesSetTwo : Prop :=
  AccumulatesWithSet .accMac2 0x092 (fun W => W.extractLsb' 32 16) (fun _ hi => hi.extractLsb' 0 16)

/-- R113: ACC.MAC3, command word 0x09A, weight-code set `WCW[63:48]`. -/
def Obligations.AccMac3AccumulatesSetThree : Prop :=
  AccumulatesWithSet .accMac3 0x09A (fun W => W.extractLsb' 48 16)
    (fun _ hi => hi.extractLsb' 16 16)

/-- R115: every selector-2 modifier but the five listed ones is ACC.READ; it returns `ACC` and changes
nothing else, and no two modifiers or operands are told apart. -/
def Obligations.AccReadReturnsAccumulator : Prop :=
  (∀ (mod : Modifier) (A B : Word), mod ≠ 8 → mod ≠ 16 → mod ≠ 17 → mod ≠ 18 → mod ≠ 19 →
    decode 0b010 mod A B = .accRead mod A B) ∧
  (∀ (mod : Modifier) (A B : Word) (s : State),
    exec (.accRead mod A B) s = .next { s with held := some s.ACC } ∧
    exec (.accRead mod A B) s = exec (.accRead 0 0 0) s)

/-- R140: selectors 3 to 7 are NOSEL for every modifier and operand; it returns 0 and changes nothing
else. -/
def Obligations.NoSelReturnsZero : Prop :=
  (∀ (sel : Selector) (mod : Modifier) (A B : Word),
    sel = 0b011 ∨ sel = 0b100 ∨ sel = 0b101 ∨ sel = 0b110 ∨ sel = 0b111 →
    decode sel mod A B = .noSel sel mod A B) ∧
  (∀ (sel : Selector) (mod : Modifier) (A B : Word) (s : State),
    exec (.noSel sel mod A B) s = .next { s with held := some 0 })

/-- R145: for every selector, modifier, operands and state, executing the decoded command gives the
result and the registers of the reference step function, and leaves the interface fields alone. Its
WC.STORE result rests on decision D6 (log entry 8). -/
def Obligations.ExecRefinesStepFunction : Prop :=
  ∀ (sel : Selector) (mod : Modifier) (A B : Word) (s : State),
    exec (decode sel mod A B) s =
      .next { s.withRegs (Spec.execute sel mod A B s.regs).2 with
        held := some (Spec.execute sel mod A B s.regs).1 }

/-- R146's writes as the frame of every command: `CB` changes only in CB.STORE, `WCW` only in
WC.STORE, `ACC` only in ACC.RESET and ACC.MACk, and no command touches what was transferred or what
the host drives next; each command leaves exactly one response held. -/
def Obligations.EachCommandWritesOnlyItsRegister : Prop :=
  ∀ (i : Instr) (s t : State), exec i s = .next t →
    (i.op ≠ .cbStore → t.CB = s.CB) ∧
    (i.op ≠ .wcStore → t.WCW = s.WCW) ∧
    (i.op ∉ [.accReset, .accMac0, .accMac1, .accMac2, .accMac3] → t.ACC = s.ACC) ∧
    t.responses = s.responses ∧ t.inputs = s.inputs ∧ t.held.isSome = true

/-- Fields that an operation ignores do not matter: the operands A and B by R64, the modifier (and
NOSEL's selector) by R62 and R66 and by each operation's own rule, R81, R83, R85, R108, R115, R140. -/
def Obligations.IgnoredFieldsDoNotMatter : Prop :=
  ∀ (m m' : Modifier) (sel sel' : Selector) (A A' B B' : Word) (s : State),
    exec (.cbStore m A B) s = exec (.cbStore m' A' B) s ∧
    exec (.wcStore m A B) s = exec (.wcStore m' A B) s ∧
    exec (.wcNop m A B) s = exec (.wcNop m' A' B') s ∧
    exec (.accReset A B) s = exec (.accReset A' B') s ∧
    exec (.accRead m A B) s = exec (.accRead m' A' B') s ∧
    exec (.noSel sel m A B) s = exec (.noSel sel' m' A' B') s

/-- R146's reads: ACC.MACk depends on `CB`, `ACC` and weight-code set k of the state and on nothing
else, in particular on no other set. -/
def Obligations.MacReadsOnlyItsSet : Prop :=
  ∀ (k : Fin 4) (A B : Word) (s s' : State), s.CB = s'.CB → s.ACC = s'.ACC →
    s.WCW.extractLsb' (16 * k.val) 16 = s'.WCW.extractLsb' (16 * k.val) 16 →
    ∃ t t', exec (macInstr k A B) s = .next t ∧ exec (macInstr k A B) s' = .next t' ∧
      t.ACC = t'.ACC ∧ t.held = t'.held

/-- R46: the loads and ACC.RESET are idempotent (for the loads the spec marks this as derived), any
number of reads and fallbacks leaves every register as it was, and ACC.MACk adds its contribution
again each time. -/
def Obligations.IdempotentAndPureCommands : Prop :=
  (∀ (i : Instr) (s : State), i.op = .cbStore ∨ i.op = .wcStore ∨ i.op = .accReset →
    execAll [i, i] s = execAll [i] s) ∧
  (∀ (is : List Instr) (s : State), (∀ i ∈ is, i.op = .accRead ∨ i.op = .wcNop ∨ i.op = .noSel) →
    ∃ t, execAll is s = .next t ∧ t.regs = s.regs) ∧
  (∀ (n : Nat) (k : Fin 4) (A B : Word) (s : State), ∃ t,
    execAll (List.replicate n (macInstr k A B)) s = .next t ∧
    t.ACC = BitVec.ofInt 32 (s.ACC.toInt + n * Spec.mac A B s.CB (Spec.set s.WCW k.val)))

/-- R82 (which the spec marks as derived) and property T1 of spec/95_test_vectors.md: after loading
the codebook `X` and a set 0 whose codes are all `c`, and ACC.RESET, `ACC.MAC0 1, 0` returns centroid
c of `X`, sign-extended, at each of the four byte positions. -/
def Obligations.CodebookIsObservableThroughMac : Prop :=
  ∀ (c : Fin 4) (X lo hi A A' B' : Word) (m m' : Modifier) (s : State),
    lo.extractLsb' 0 16 = BitVec.ofNat 16 (0x5555 * c.val) →
    ∃ t, execAll [.cbStore m A X, .wcStore m' lo hi, .accReset A' B', .accMac0 1 0] s = .next t ∧
      t.held = some (BitVec.ofInt 32 (Spec.sbyte X c.val))

/-- R84: after `WC.STORE lo, hi`, every later ACC.MACk until the next WC.STORE selects set k as
`({hi, lo} >> 16k) & 0xFFFF`. -/
def Obligations.WeightStorePackingLaw : Prop :=
  ∀ (mod : Modifier) (lo hi : Word) (between : List Instr) (s : State),
    (∀ i ∈ between, i.op ≠ .wcStore) →
    ∃ t, execAll (.wcStore mod lo hi :: between) s = .next t ∧
      ∀ (k : Fin 4) (A B : Word), exec (macInstr k A B) t =
        .next (t.accumulated A B ((((hi ++ lo : BitVec 64) >>> (16 * k.val)) &&& 0xFFFF).setWidth 16))

/-- R114 (which the spec marks as derived): after ACC.RESET, any commands without another ACC.RESET
leave `ACC` equal to the sum of the MAC contributions modulo 2^32, each under the codebook and
weights it found; no clamping at any point. -/
def Obligations.AccumulationIsAdditive : Prop :=
  ∀ (A B : Word) (is : List Instr) (s : State), (∀ i ∈ is, i.op ≠ .accReset) →
    ∃ t, execAll (.accReset A B :: is) s = .next t ∧
      t.ACC = BitVec.ofInt 32 (contributions is s.CB s.WCW).sum

/-- R174 (which the spec marks as derived): with `CB` = 0, as after reset, an ACC.MACk adds 0 and
returns `ACC`. -/
def Obligations.ZeroCodebookAddsNothing : Prop :=
  ∀ (k : Fin 4) (A B : Word) (s : State), s.CB = 0 →
    exec (macInstr k A B) s = .next { s with held := some s.ACC }

/-- R150: no command raises an exception, from any state; and no run of the machine stops. -/
def Obligations.NoCommandAndNoRunStops : Prop :=
  (∀ (i : Instr) (s : State), ∃ t, exec i s = .next t) ∧ (∀ (n : Nat) (s : State), SafeRun n s)

/-! ### The interface, reset and whole-machine rules -/

/-- A step runs the decoded command (R63, R182, R45): that an idle engine accepts whenever a command is
offered without reset is log entry 3 (DEDUCED, decisions D2 and D5), that a turn makes one transfer is
log entry 4, and that the command commits in that step is log entry 19. When the engine is idle and the host offers a command without
reset, the step is `exec` of the decoded instruction in the state with that turn's input gone; and
that is `exec i` for a well-formed `i` when the command is its encoding. -/
def Obligations.StepRunsDecodedCommand : Prop :=
  ∀ (s : State) (inp : HostInput) (rest : List HostInput) (c : Command),
    s.inputs = inp :: rest → inp.reset = false → s.held = none → inp.cmd = some c →
    step s = exec (decodeCommand c) { s with inputs := rest } ∧
    (∀ i : Instr, i.wf = true → c = encode i → step s = exec i { s with inputs := rest })

/-- The word placed by `withFetchWord` runs in the very next step, in every state (the model's own
placement, log entry 15). -/
def Obligations.FetchWordRunsTableInstruction : Prop :=
  ∀ (s : State) (nbits w : Nat) (i : Instr), decodeTableWord nbits w = some i →
    step (s.withFetchWord nbits w) = exec i { s with held := none }

/-- The state after hardware reset (R170, the spec's decision D1, log entry 5): every register is 0
and no command is in flight; the two lists are the model's own fields (log entries 1 and 2). -/
def Obligations.ResetStateIsAllZero : Prop :=
  State.reset.CB = 0 ∧ State.reset.WCW = 0 ∧ State.reset.ACC = 0 ∧ State.reset.held = none ∧
    State.reset.responses = [] ∧ State.reset.inputs = []

/-- R170 to R172, the spec's decisions D1 and D14 (log entries 5 and 6): when reset is asserted, every
register becomes 0, a command in flight is abandoned without a response, and a command offered in
that turn is not accepted. -/
def Obligations.HardwareResetAbandonsCommand : Prop :=
  ∀ (s : State) (inp : HostInput) (rest : List HostInput),
    s.inputs = inp :: rest → inp.reset = true →
    step s = .next { CB := 0, WCW := 0, ACC := 0, held := none, responses := s.responses,
                     inputs := rest }

/-- R63 and R182 (decisions D2 and D5, log entries 3 and 4): a held response is transferred when the
host is ready, unchanged; the registers keep their values, and a command offered in that turn is not
accepted. -/
def Obligations.ReadyHostTakesHeldResponse : Prop :=
  ∀ (s : State) (inp : HostInput) (rest : List HostInput) (r : Word),
    s.inputs = inp :: rest → inp.reset = false → s.held = some r → inp.rspReady = true →
    step s = .next { s with held := none, responses := s.responses ++ [r], inputs := rest }

/-- R153 and R156 (decisions D10, D4, D5; log entry 3): the engine does no work except in response to
a command: with nothing driven, with no command offered to an idle engine, or with a response held
and a host that is not ready, no register, response or transfer changes. -/
def Obligations.QuietTurnChangesNothing : Prop :=
  (∀ s : State, s.inputs = [] → step s = .next s) ∧
  (∀ (s : State) (inp : HostInput) (rest : List HostInput),
    s.inputs = inp :: rest → inp.reset = false →
    (s.held = none ∧ inp.cmd = none) ∨ (s.held ≠ none ∧ inp.rspReady = false) →
    step s = .next { s with inputs := rest })

/-- R180 and R182 (decisions D2, D5, D18; log entry 3): while the host does not take the held
response, the engine accepts no command, however many are offered and however long it lasts. -/
def Obligations.StalledEngineAcceptsNothing : Prop :=
  ∀ (n : Nat) (s : State), s.held ≠ none →
    (∀ inp ∈ s.inputs.take n, inp.reset = false ∧ inp.rspReady = false) →
    runSteps n s = .next { s with inputs := s.inputs.drop n }

/-- R185 (decisions D16 and D18, log entry 4): an accepted command's response is transferred as soon
as the host takes it, however long the host stalled and whatever it offered meanwhile, and it is the
reference's result. -/
def Obligations.AcceptedCommandGetsItsResponse : Prop :=
  ∀ (s : State) (first last : HostInput) (stall rest : List HostInput) (c : Command),
    s.held = none → s.inputs = first :: (stall ++ last :: rest) →
    first.reset = false → first.cmd = some c →
    (∀ inp ∈ stall, inp.reset = false ∧ inp.rspReady = false) →
    last.reset = false → last.rspReady = true →
    runSteps (stall.length + 2) s =
      .next { s.withRegs (Spec.executeCommand c s.regs).2 with
        responses := s.responses ++ [(Spec.executeCommand c s.regs).1]
        inputs := rest }

/-- R49, R63 and R145 (decisions D2, D5 and D6; log entries 3, 4 and 8): a host that offers each
command and takes its response gets, after two turns a command, exactly the reference's results in
order, and the registers are the reference's. -/
def Obligations.TransactionsComputeReferenceRun : Prop :=
  ∀ (cs : List Command) (rest : List HostInput) (s : State),
    s.held = none → s.inputs = transactions cs ++ rest →
    runSteps (2 * cs.length) s =
      .next { s.withRegs (Spec.executeAll cs s.regs).2 with
        responses := s.responses ++ (Spec.executeAll cs s.regs).1
        inputs := rest }

/-- R49, R63, R172 and R182 (decisions D1, D2, D5, D6 and D14; log entries 2 to 6 and 8): under EVERY
schedule the host may drive, resets at any time included, from any state, the run over it leaves the
registers and the held response, and transfers the words, that the reference of the interface gives.
Without a reset, the registers are those of the accepted commands run in order by the reference, and
each accepted command has exactly one response, in order: the transferred ones followed by the one
still held. After the last reset the same holds from registers 0 with nothing outstanding, and what
was transferred before it stays. -/
def Obligations.EverySchedulePreservesCommandOrder : Prop :=
  (∀ s : State, runSteps s.inputs.length s =
    .next { s.withRegs (scheduleRun s.held s.regs s.inputs).2.2 with
      held := (scheduleRun s.held s.regs s.inputs).2.1
      responses := s.responses ++ (scheduleRun s.held s.regs s.inputs).1
      inputs := [] }) ∧
  (∀ s : State, (∀ inp ∈ s.inputs, inp.reset = false) →
    ∃ t, runSteps s.inputs.length s = .next t ∧ t.inputs = [] ∧
      t.regs = (Spec.executeAll (acceptedCommands s.held.isSome s.inputs) s.regs).2 ∧
      t.responses ++ t.held.toList =
        s.responses ++ s.held.toList ++
          (Spec.executeAll (acceptedCommands s.held.isSome s.inputs) s.regs).1) ∧
  (∀ (s : State) (pre post : List HostInput) (rst : HostInput),
    s.inputs = pre ++ rst :: post → rst.reset = true → (∀ inp ∈ post, inp.reset = false) →
    ∃ u t, runSteps pre.length s = .next u ∧ runSteps s.inputs.length s = .next t ∧
      t.inputs = [] ∧
      t.regs = (Spec.executeAll (acceptedCommands false post) Spec.resetRegs).2 ∧
      t.responses ++ t.held.toList =
        u.responses ++ (Spec.executeAll (acceptedCommands false post) Spec.resetRegs).1)

/-- R21 and R25 as a whole-machine rule: a step changes `CB` only by hardware reset or an accepted
CB.STORE, `WCW` only by hardware reset or an accepted WC.STORE, and `ACC` only by hardware reset or
an accepted ACC.RESET or ACC.MACk. -/
def Obligations.RegistersChangeOnlyByTheirWriters : Prop :=
  ∀ (s t : State), step s = .next t →
    let byResetOr (writes : Op → Bool) := ∃ inp rest, s.inputs = inp :: rest ∧
      (inp.reset = true ∨
        (s.held = none ∧ ∃ c, inp.cmd = some c ∧ writes (decodeCommand c).op = true))
    (t.CB ≠ s.CB → byResetOr (fun o => o == .cbStore)) ∧
    (t.WCW ≠ s.WCW → byResetOr (fun o => o == .wcStore)) ∧
    (t.ACC ≠ s.ACC → byResetOr (fun o =>
      o == .accReset || o == .accMac0 || o == .accMac1 || o == .accMac2 || o == .accMac3))

/-- R63: what has been transferred stays as it is; a step adds at most one word, and that word is the
response that was held (the record is the model's own field, log entry 1). -/
def Obligations.TransferredResponsesOnlyGrow : Prop :=
  ∀ (s t : State), step s = .next t →
    t.responses = s.responses ∨
      ∃ r, s.held = some r ∧ t.held = none ∧ t.responses = s.responses ++ [r]

/-- The invariant of R182 ("the held response already reflects it") holds right after reset. -/
def Obligations.HeldResponseReflectsRegistersAtReset : Prop :=
  State.reset.HeldReflectsRegisters

/-- The invariant of R182, kept by every step from every state that has it: a held response is 0 or
reflects the registers as committed. -/
def Obligations.HeldResponseReflectsRegistersKept : Prop :=
  ∀ (s t : State), s.HeldReflectsRegisters → step s = .next t → t.HeldReflectsRegisters

/-- R163 and R30 (decision D12, log entry 12): engine instances share no state: a step of engine k
is that engine's own step and leaves every other engine as it was; at reset every one of the
NUM_ENGINES engines is in the reset state. -/
def Obligations.EnginesShareNoState : Prop :=
  (∀ (sys : EngineArray) (k : Nat), ∃ sys', EngineArray.stepAt sys k = .next sys' ∧
    sys'.length = sys.length ∧ (∀ j, j ≠ k → sys'[j]? = sys[j]?) ∧
    (∀ s, sys[k]? = some s → ∃ t, step s = .next t ∧ sys'[k]? = some t)) ∧
  EngineArray.reset.length = Config.NUM_ENGINES ∧ (∀ s ∈ EngineArray.reset, s = State.reset)
end

