-- ==== Sys2Proof/Laws/Decode.lean ====
section
/-! SUPPORT. The command word's two fields, packed and read back: what later proofs cite instead of
unfolding bit positions. -/

namespace Sys2Proof

@[simp] theorem Command.ofFields_A (sel : Selector) (mod : Modifier) (A B : Word) :
    (Command.ofFields sel mod A B).A = A := rfl

@[simp] theorem Command.ofFields_B (sel : Selector) (mod : Modifier) (A B : Word) :
    (Command.ofFields sel mod A B).B = B := rfl

@[simp] theorem Command.ofFields_cmd (sel : Selector) (mod : Modifier) (A B : Word) :
    (Command.ofFields sel mod A B).cmd = packCommandWord sel mod := rfl

/-- `cmd[2:0]` of `{mod, sel}` is `sel`. -/
theorem packCommandWord_selector (sel : Selector) (mod : Modifier) :
    (packCommandWord sel mod).extractLsb' 0 3 = sel :=
  BitVec.extractLsb'_append_eq_right

/-- `cmd[9:3]` of `{mod, sel}` is `mod`. -/
theorem packCommandWord_modifier (sel : Selector) (mod : Modifier) :
    (packCommandWord sel mod).extractLsb' 3 7 = mod := by
  ext i hi
  rw [BitVec.getElem_extractLsb']
  refine (BitVec.getLsbD_append (x := mod) (y := sel) (i := 3 + i)).trans ?_
  simp [hi, BitVec.getLsbD_eq_getElem]

@[simp] theorem Command.ofFields_sel (sel : Selector) (mod : Modifier) (A B : Word) :
    (Command.ofFields sel mod A B).sel = sel := packCommandWord_selector sel mod

@[simp] theorem Command.ofFields_mod (sel : Selector) (mod : Modifier) (A B : Word) :
    (Command.ofFields sel mod A B).mod = mod := packCommandWord_modifier sel mod

/-- A command word is the packing of its own two fields. -/
theorem packCommandWord_fields (w : CommandWord) :
    packCommandWord (w.extractLsb' 0 3) (w.extractLsb' 3 7) = w := by
  apply BitVec.eq_of_getLsbD_eq
  intro i hi
  refine (BitVec.getLsbD_append (x := w.extractLsb' 3 7) (y := w.extractLsb' 0 3) (i := i)).trans ?_
  by_cases h : i < 3
  · simp [h]
  · simp [h, show i - 3 < 7 by omega, show 3 + (i - 3) = i by omega]

/-- Decoding a command given by its fields is the decode function on them. -/
@[simp] theorem decodeCommand_ofFields (sel : Selector) (mod : Modifier) (A B : Word) :
    decodeCommand (Command.ofFields sel mod A B) = decode sel mod A B := by
  simp [decodeCommand]

end Sys2Proof
end

