-- ==== Sys2Proof/Laws/State.lean ====
section
/-! SUPPORT. One lemma per field and per update of State, each true by definition, so that no proof
unfolds a record update. -/

namespace Sys2Proof.Machine

variable (s : State)

@[simp] theorem State.setCB_CB (v : Word) : (s.setCB v).CB = v := rfl
@[simp] theorem State.setCB_WCW (v : Word) : (s.setCB v).WCW = s.WCW := rfl
@[simp] theorem State.setCB_ACC (v : Word) : (s.setCB v).ACC = s.ACC := rfl
@[simp] theorem State.setCB_held (v : Word) : (s.setCB v).held = s.held := rfl
@[simp] theorem State.setCB_responses (v : Word) : (s.setCB v).responses = s.responses := rfl
@[simp] theorem State.setCB_inputs (v : Word) : (s.setCB v).inputs = s.inputs := rfl

@[simp] theorem State.setWCW_CB (v : WeightCodeWord) : (s.setWCW v).CB = s.CB := rfl
@[simp] theorem State.setWCW_WCW (v : WeightCodeWord) : (s.setWCW v).WCW = v := rfl
@[simp] theorem State.setWCW_ACC (v : WeightCodeWord) : (s.setWCW v).ACC = s.ACC := rfl
@[simp] theorem State.setWCW_held (v : WeightCodeWord) : (s.setWCW v).held = s.held := rfl
@[simp] theorem State.setWCW_responses (v : WeightCodeWord) : (s.setWCW v).responses = s.responses := rfl
@[simp] theorem State.setWCW_inputs (v : WeightCodeWord) : (s.setWCW v).inputs = s.inputs := rfl

@[simp] theorem State.setACC_CB (v : Word) : (s.setACC v).CB = s.CB := rfl
@[simp] theorem State.setACC_WCW (v : Word) : (s.setACC v).WCW = s.WCW := rfl
@[simp] theorem State.setACC_ACC (v : Word) : (s.setACC v).ACC = v := rfl
@[simp] theorem State.setACC_held (v : Word) : (s.setACC v).held = s.held := rfl
@[simp] theorem State.setACC_responses (v : Word) : (s.setACC v).responses = s.responses := rfl
@[simp] theorem State.setACC_inputs (v : Word) : (s.setACC v).inputs = s.inputs := rfl

@[simp] theorem State.result_CB (v : Word) : (s.result v).CB = s.CB := rfl
@[simp] theorem State.result_WCW (v : Word) : (s.result v).WCW = s.WCW := rfl
@[simp] theorem State.result_ACC (v : Word) : (s.result v).ACC = s.ACC := rfl
@[simp] theorem State.result_held (v : Word) : (s.result v).held = some v := rfl
@[simp] theorem State.result_responses (v : Word) : (s.result v).responses = s.responses := rfl
@[simp] theorem State.result_inputs (v : Word) : (s.result v).inputs = s.inputs := rfl

@[simp] theorem State.endTurn_CB : (s.endTurn).CB = s.CB := rfl
@[simp] theorem State.endTurn_WCW : (s.endTurn).WCW = s.WCW := rfl
@[simp] theorem State.endTurn_ACC : (s.endTurn).ACC = s.ACC := rfl
@[simp] theorem State.endTurn_held : (s.endTurn).held = s.held := rfl
@[simp] theorem State.endTurn_responses : (s.endTurn).responses = s.responses := rfl
@[simp] theorem State.endTurn_inputs : (s.endTurn).inputs = s.inputs.tail := rfl

@[simp] theorem State.transferResponse_CB (r : Word) : (s.transferResponse r).CB = s.CB := rfl
@[simp] theorem State.transferResponse_WCW (r : Word) : (s.transferResponse r).WCW = s.WCW := rfl
@[simp] theorem State.transferResponse_ACC (r : Word) : (s.transferResponse r).ACC = s.ACC := rfl
@[simp] theorem State.transferResponse_held (r : Word) : (s.transferResponse r).held = none := rfl
@[simp] theorem State.transferResponse_responses (r : Word) : (s.transferResponse r).responses = s.responses ++ [r] := rfl
@[simp] theorem State.transferResponse_inputs (r : Word) : (s.transferResponse r).inputs = s.inputs := rfl

@[simp] theorem State.hardwareReset_CB : (s.hardwareReset).CB = 0 := rfl
@[simp] theorem State.hardwareReset_WCW : (s.hardwareReset).WCW = 0 := rfl
@[simp] theorem State.hardwareReset_ACC : (s.hardwareReset).ACC = 0 := rfl
@[simp] theorem State.hardwareReset_held : (s.hardwareReset).held = none := rfl
@[simp] theorem State.hardwareReset_responses : (s.hardwareReset).responses = s.responses := rfl
@[simp] theorem State.hardwareReset_inputs : (s.hardwareReset).inputs = s.inputs := rfl

section accumulate

variable (k : Fin 4) (A B : Word)

@[simp] theorem State.accumulate_CB :
    (s.accumulate k A B).CB = s.CB := by
  simp [State.accumulate]
@[simp] theorem State.accumulate_WCW :
    (s.accumulate k A B).WCW = s.WCW := by
  simp [State.accumulate]
@[simp] theorem State.accumulate_ACC :
    (s.accumulate k A B).ACC = wrapAdd s.ACC (mac A B s.CB (weightSet s.WCW k)) := by
  simp [State.accumulate]
@[simp] theorem State.accumulate_held :
    (s.accumulate k A B).held = some (wrapAdd s.ACC (mac A B s.CB (weightSet s.WCW k))) := by
  simp [State.accumulate]
@[simp] theorem State.accumulate_responses :
    (s.accumulate k A B).responses = s.responses := by
  simp [State.accumulate]
@[simp] theorem State.accumulate_inputs :
    (s.accumulate k A B).inputs = s.inputs := by
  simp [State.accumulate]

end accumulate

section withRegs

variable (r : Spec.Regs)

@[simp] theorem State.withRegs_CB : (s.withRegs r).CB = r.CB := rfl
@[simp] theorem State.withRegs_WCW : (s.withRegs r).WCW = r.WCW := rfl
@[simp] theorem State.withRegs_ACC : (s.withRegs r).ACC = r.ACC := rfl
@[simp] theorem State.withRegs_held : (s.withRegs r).held = s.held := rfl
@[simp] theorem State.withRegs_responses : (s.withRegs r).responses = s.responses := rfl
@[simp] theorem State.withRegs_inputs : (s.withRegs r).inputs = s.inputs := rfl

end withRegs

@[simp] theorem State.regs_CB : s.regs.CB = s.CB := rfl
@[simp] theorem State.regs_WCW : s.regs.WCW = s.WCW := rfl
@[simp] theorem State.regs_ACC : s.regs.ACC = s.ACC := rfl

@[simp] theorem State.regs_withRegs (r : Spec.Regs) : (s.withRegs r).regs = r := rfl
@[simp] theorem State.withRegs_regs : s.withRegs s.regs = s := rfl

/-- Two states are equal when their six fields are. -/
theorem State.eq_of_fields {s t : State} (hCB : s.CB = t.CB) (hWCW : s.WCW = t.WCW)
    (hACC : s.ACC = t.ACC) (hheld : s.held = t.held) (hresp : s.responses = t.responses)
    (hin : s.inputs = t.inputs) : s = t := by
  cases s
  cases t
  simp_all

end Sys2Proof.Machine
end

