-- ==== Sys2Proof/Laws/Exec.lean ====
section
/-! SUPPORT. One equation per meaning, in the named operations: what later proofs cite instead of
unfolding `exec`. -/

namespace Sys2Proof.Machine

variable (mod : Modifier) (sel : Selector) (A B : Word) (s : State)

theorem exec_cbStore : exec (.cbStore mod A B) s = .next ((s.setCB B).result B) := rfl

/-- The low half of `{B, A}` is `A`. -/
theorem weightCodeWord_low (lo hi : Word) : (weightCodeWord lo hi).extractLsb' 0 32 = lo :=
  BitVec.extractLsb'_append_eq_right

theorem exec_wcStore :
    exec (.wcStore mod A B) s = .next ((s.setWCW (weightCodeWord A B)).result A) := by
  simp [exec, execWcStore, weightCodeWord_low]

theorem exec_wcNop : exec (.wcNop mod A B) s = .next (s.result 0) := rfl

theorem exec_accReset : exec (.accReset A B) s = .next ((s.setACC 0).result 0) := rfl

theorem exec_accMac0 : exec (.accMac0 A B) s = .next (s.accumulate 0 A B) := rfl

theorem exec_accMac1 : exec (.accMac1 A B) s = .next (s.accumulate 1 A B) := rfl

theorem exec_accMac2 : exec (.accMac2 A B) s = .next (s.accumulate 2 A B) := rfl

theorem exec_accMac3 : exec (.accMac3 A B) s = .next (s.accumulate 3 A B) := rfl

theorem exec_accRead : exec (.accRead mod A B) s = .next (s.result s.ACC) := rfl

theorem exec_noSel : exec (.noSel sel mod A B) s = .next (s.result 0) := rfl

/-- The four accumulate instructions at once. -/
theorem exec_macInstr (k : Fin 4) : exec (macInstr k A B) s = .next (s.accumulate k A B) := by
  match k with
  | 0 => rfl
  | 1 => rfl
  | 2 => rfl
  | 3 => rfl

/-- Every meaning answers a next state with the inputs and the record of responses as they were. -/
theorem exec_next (i : Instr) (s : State) :
    ∃ t, exec i s = .next t ∧ t.inputs = s.inputs ∧ t.responses = s.responses := by
  cases i <;> exact ⟨_, rfl, rfl, rfl⟩

@[simp] theorem execAll_nil (s : State) : execAll [] s = .next s := rfl

/-- A sequence whose first instruction answers a next state goes on from there. -/
theorem execAll_cons {i : Instr} {is : List Instr} {s t : State} (h : exec i s = .next t) :
    execAll (i :: is) s = execAll is t := by
  simp [execAll, h]

end Sys2Proof.Machine
end

