-- ==== Sys2Proof/Laws/Operands.lean ====
section
/-! SUPPORT. What the operand extractions and the wrapping sum are as numbers: what later proofs cite
instead of unfolding bit positions. -/

namespace Sys2Proof.Machine

/-- A byte lane as a number. -/
theorem byteLane_toNat (w : Word) (n : Fin 4) :
    (byteLane w n).toNat = w.toNat / 2 ^ (8 * n.val) % 256 := by
  simp [byteLane, BitVec.extractLsb'_toNat, Nat.shiftRight_eq_div_pow]

/-- A 2-bit code as a number. -/
theorem code_val (s : WeightSet) (n : Fin 8) : (code s n).val = s.toNat / 2 ^ (2 * n.val) % 4 := by
  simp [code, BitVec.extractLsb'_toNat, Nat.shiftRight_eq_div_pow]

/-- A weight-code set as a number. -/
theorem weightSet_toNat (W : WeightCodeWord) (k : Fin 4) :
    (weightSet W k).toNat = W.toNat / 2 ^ (16 * k.val) % 65536 := by
  simp [weightSet, BitVec.extractLsb'_toNat, Nat.shiftRight_eq_div_pow]

/-- `{B, A}` as a number. -/
theorem weightCodeWord_toNat (lo hi : Word) :
    (weightCodeWord lo hi).toNat = hi.toNat * 2 ^ 32 + lo.toNat := by
  refine (BitVec.toNat_append hi lo).trans ?_
  rw [← Nat.shiftLeft_add_eq_or_of_lt lo.isLt, Nat.shiftLeft_eq]

/-- A byte read as signed lies in -128..127. -/
theorem byte_toInt_bounds (x : Byte) : -128 ≤ x.toInt ∧ x.toInt ≤ 127 := by
  have h1 := BitVec.le_toInt x
  have h2 := BitVec.toInt_lt (x := x)
  norm_num at h1 h2
  omega

/-- The wrapping sum is the exact signed sum kept modulo 2^32. -/
theorem wrapAdd_eq_ofInt (acc : Word) (m : Int) :
    wrapAdd acc m = BitVec.ofInt 32 (acc.toInt + m) := by
  simp [wrapAdd, BitVec.ofInt_add]

end Sys2Proof.Machine
end

