-- ==== Sys2Proof/Laws/PerInstr.lean ====
section
/-! SUPPORT. What is said of every instruction as syntax, one lemma per constructor.

Family Packing: the encoding of an instruction carries its selector, its modifier and its operands, so
the fields read back from the command word are the instruction's (spec/30_encoding.md R61, R62). -/

namespace Sys2Proof.Laws.Packing

/-- The four fields of an instruction's command are the instruction's own. -/
def Statement (i : Instr) : Prop :=
  (encode i).sel = i.selector ∧ (encode i).mod = i.modifier ∧ (encode i).A = i.opA ∧
    (encode i).B = i.opB

/-- The packing loses no field, whatever the four fields are. -/
theorem of_encode (i : Instr) : Statement i :=
  ⟨Command.ofFields_sel _ _ _ _, Command.ofFields_mod _ _ _ _, rfl, rfl⟩

theorem cbStore (mod : Modifier) (A B : Word) : Statement (.cbStore mod A B) := of_encode _

theorem wcStore (mod : Modifier) (A B : Word) : Statement (.wcStore mod A B) := of_encode _

theorem wcNop (mod : Modifier) (A B : Word) : Statement (.wcNop mod A B) := of_encode _

theorem accReset (A B : Word) : Statement (.accReset A B) := of_encode _

theorem accMac0 (A B : Word) : Statement (.accMac0 A B) := of_encode _

theorem accMac1 (A B : Word) : Statement (.accMac1 A B) := of_encode _

theorem accMac2 (A B : Word) : Statement (.accMac2 A B) := of_encode _

theorem accMac3 (A B : Word) : Statement (.accMac3 A B) := of_encode _

theorem accRead (mod : Modifier) (A B : Word) : Statement (.accRead mod A B) := of_encode _

theorem noSel (sel : Selector) (mod : Modifier) (A B : Word) : Statement (.noSel sel mod A B) :=
  of_encode _

end Sys2Proof.Laws.Packing
end

