-- ==== Sys2Proof/Laws/Step.lean ====
section
/-! SUPPORT. What one turn of the interface can do: one equation per kind of turn, and the inversion
of a step that answers a next state. -/

namespace Sys2Proof.Machine

variable {s t : State}

/-- No input: a quiet turn. -/
theorem turn_of_no_input (h : s.inputs = []) : s.turn = .quiet := by
  simp [State.turn, h]

/-- An asserted reset is the turn, whatever else the host drives. -/
theorem turn_of_reset {inp : HostInput} {rest : List HostInput} (h : s.inputs = inp :: rest)
    (hr : inp.reset = true) : s.turn = .reset := by
  simp [State.turn, h, hr]

/-- A held response and a ready host: the response is transferred. -/
theorem turn_of_ready {inp : HostInput} {rest : List HostInput} {r : Word}
    (h : s.inputs = inp :: rest) (hr : inp.reset = false) (hh : s.held = some r)
    (hy : inp.rspReady = true) : s.turn = .respond r := by
  simp [State.turn, h, hr, hh, hy]

/-- A held response and a host that is not ready: nothing transfers. -/
theorem turn_of_stall {inp : HostInput} {rest : List HostInput} {r : Word}
    (h : s.inputs = inp :: rest) (hr : inp.reset = false) (hh : s.held = some r)
    (hy : inp.rspReady = false) : s.turn = .quiet := by
  simp [State.turn, h, hr, hh, hy]

/-- An idle engine and a command offered: the command is accepted. -/
theorem turn_of_offer {inp : HostInput} {rest : List HostInput} {c : Command}
    (h : s.inputs = inp :: rest) (hr : inp.reset = false) (hh : s.held = none)
    (hc : inp.cmd = some c) : s.turn = .accept c := by
  simp [State.turn, h, hr, hh, hc]

/-- An idle engine and no command offered: nothing transfers. -/
theorem turn_of_idle {inp : HostInput} {rest : List HostInput}
    (h : s.inputs = inp :: rest) (hr : inp.reset = false) (hh : s.held = none)
    (hc : inp.cmd = none) : s.turn = .quiet := by
  simp [State.turn, h, hr, hh, hc]

theorem step_of_quiet (h : s.turn = .quiet) : step s = .next s.endTurn := by
  simp [step, h]

theorem step_of_reset (h : s.turn = .reset) : step s = .next s.endTurn.hardwareReset := by
  simp [step, h]

theorem step_of_respond {r : Word} (h : s.turn = .respond r) :
    step s = .next (s.endTurn.transferResponse r) := by
  simp [step, h]

theorem step_of_accept {c : Command} (h : s.turn = .accept c) :
    step s = exec (decodeCommand c) s.endTurn := by
  simp [step, h]

/-- Only a held response is transferred. -/
theorem held_of_turn_respond {r : Word} (h : s.turn = .respond r) : s.held = some r := by
  unfold State.turn at h
  split at h
  · cases h
  · split at h
    · cases h
    · split at h
      · split at h
        · cases h
          assumption
        · cases h
      · split at h <;> cases h

/-- Only an idle engine accepts, and it accepts the command the host offers without reset. -/
theorem idle_of_turn_accept {c : Command} (h : s.turn = .accept c) :
    s.held = none ∧ ∃ inp rest, s.inputs = inp :: rest ∧ inp.reset = false ∧ inp.cmd = some c := by
  unfold State.turn at h
  split at h
  · cases h
  case h_2 inp rest hin =>
    split at h
    · cases h
    case isFalse hr =>
      split at h
      · split at h <;> cases h
      case h_2 hh =>
        split at h
        case h_1 c' hc =>
          cases h
          exact ⟨hh, inp, rest, hin, by simpa using hr, hc⟩
        · cases h

/-- A command is accepted only while `cmd_ready` is up, and a response is transferred only while
`rsp_valid` is up. -/
theorem ready_and_valid_of_turn :
    (∀ c, s.turn = .accept c → s.cmdReady = true) ∧
      (∀ r, s.turn = .respond r → s.rspValid = true) :=
  ⟨fun _ h => by simp [State.cmdReady, (idle_of_turn_accept h).1],
   fun _ h => by simp [State.rspValid, held_of_turn_respond h]⟩

/-- A reset turn comes from an asserted reset. -/
theorem reset_of_turn_reset (h : s.turn = .reset) :
    ∃ inp rest, s.inputs = inp :: rest ∧ inp.reset = true := by
  unfold State.turn at h
  split at h
  · cases h
  case h_2 inp rest hin =>
    split at h
    case isTrue hr => exact ⟨inp, rest, hin, hr⟩
    · split at h
      · split at h <;> cases h
      · split at h <;> cases h

/-- Everything a step that answers a next state can have done. -/
theorem step_cases (h : step s = .next t) :
    (s.turn = .quiet ∧ t = s.endTurn) ∨
    (s.turn = .reset ∧ t = s.endTurn.hardwareReset) ∨
    (∃ r, s.turn = .respond r ∧ s.held = some r ∧ t = s.endTurn.transferResponse r) ∨
    (∃ c, s.turn = .accept c ∧ s.held = none ∧ exec (decodeCommand c) s.endTurn = .next t) := by
  cases ht : s.turn with
  | quiet =>
    rw [step_of_quiet ht] at h
    cases h
    exact .inl ⟨rfl, rfl⟩
  | reset =>
    rw [step_of_reset ht] at h
    cases h
    exact .inr (.inl ⟨rfl, rfl⟩)
  | respond r =>
    rw [step_of_respond ht] at h
    cases h
    exact .inr (.inr (.inl ⟨r, rfl, held_of_turn_respond ht, rfl⟩))
  | accept c =>
    rw [step_of_accept ht] at h
    exact .inr (.inr (.inr ⟨c, rfl, (idle_of_turn_accept ht).1, h⟩))

@[simp] theorem runSteps_zero (s : State) : runSteps 0 s = .next s := rfl

/-- A run whose first step answers a next state goes on from there. -/
theorem runSteps_succ (n : Nat) (h : step s = .next t) : runSteps (n + 1) s = runSteps n t := by
  simp [runSteps, h]

/-- A run of `m + n` steps is a run of `n` steps from where `m` steps lead. -/
theorem runSteps_add (m n : Nat) (h : runSteps m s = .next t) :
    runSteps (m + n) s = runSteps n t := by
  induction m generalizing s with
  | zero => cases h; rw [Nat.zero_add]
  | succ m ih =>
    rw [Nat.succ_add]
    cases hs : step s with
    | next u =>
      rw [runSteps_succ m hs] at h
      rw [runSteps_succ (m + n) hs]
      exact ih h
    | fault r => cases r
    | refused r => simp [runSteps, hs] at h

/-- The model's run is the host's run of `Sys2Proof.core`. -/
theorem core_run_eq_runSteps (n : Nat) (s : State) :
    Host.Core.run Sys2Proof.core n s = runSteps n s := by
  induction n generalizing s with
  | zero => rfl
  | succ n ih =>
    have hc : Sys2Proof.core.step s = step s := rfl
    cases h : step s with
    | next t =>
      rw [runSteps_succ n h, ← ih t]
      simp only [Host.Core.run]
      rw [hc.trans h]
    | fault r => cases r
    | refused r =>
      simp only [Host.Core.run, runSteps]
      rw [hc.trans h, h]
      rfl

end Sys2Proof.Machine
end

