-- ==== Sys2Proof/Tests/Slice0.lean ====
section
/-! SUPPORT. The model's own tests: the well-formedness smoke tests, words written out from the spec's
encodings, single steps against spec/95_test_vectors.md (the vector's id stands in each comment), and
one witness for the hypotheses of each statement that has some. -/

namespace Sys2Proof.Tests

open Sys2Proof.Machine

/-- A small state: the three registers, idle, nothing driven. -/
def regs (CB : Word) (WCW : WeightCodeWord) (ACC : Word) : State :=
  { CB := CB, WCW := WCW, ACC := ACC, held := none, responses := [], inputs := [] }

/-- The same with the host's next inputs. -/
def driven (ins : List HostInput) (held : Option Word) : State :=
  { CB := 1, WCW := 2, ACC := 3, held := held, responses := [9], inputs := ins }

/-- The registers and the held result after a step that answers a next state. -/
def ran (o : Host.Outcome State Fault Refusal) :
    Option (Word × WeightCodeWord × Word × Option Word) :=
  match o with
  | .next t => some (t.CB, t.WCW, t.ACC, t.held)
  | .fault _ => none
  | .refused _ => none

/-! ### Well-formedness refuses each ill-formed term -/

theorem test_wf_wcStore_needs_bit2 : (Instr.wcStore 0b1111011 0 0).wf = false := by decide
theorem test_wf_wcNop_needs_no_bit2 : (Instr.wcNop 0b0000100 0 0).wf = false := by decide
theorem test_wf_accRead_is_not_a_listed_modifier :
    (Instr.accRead 0b0001000 0 0).wf = false ∧ (Instr.accRead 0b0010011 0 0).wf = false ∧
      (Instr.accRead 0b0010100 0 0).wf = true := by decide
theorem test_wf_noSel_starts_at_selector_3 :
    (Instr.noSel 2 0 0 0).wf = false ∧ (Instr.noSel 3 0 0 0).wf = true := by decide
theorem test_wf_asm_checks_modifier_and_operands :
    (Asm.wcStore (some 0b1111011) (some 0) (some 0)).wf = false ∧
      (Asm.wcStore none none (some 0)).wf = false ∧ (Asm.cbStore none none none).wf = false ∧
      (Asm.wcNop (some 0b0000100) none none).wf = false ∧ (Asm.accMac 0 none none).wf = false ∧
      (Asm.accRead (some 0b0010000) none none).wf = false ∧
      (Asm.noSel (some (2, 0)) none none).wf = false := by decide

/-! ### Command words written out from the bit map of spec/30_encoding.md R62 (vectors X1 to X26) -/

/-- The operation the decoder reads from a command word. -/
def opOf (w : CommandWord) : Op := (decodeCommand { cmd := w, A := 0, B := 0 }).op

-- X1, X2, X3
theorem test_decode_cbStore : opOf 0b0000000000 = .cbStore ∧ opOf 0b1111111000 = .cbStore ∧
    decodeCommand { cmd := 0b1010101000, A := 5, B := 6 } = .cbStore 0b1010101 5 6 := by decide
-- X4, X5, X6
theorem test_decode_wcStore : opOf 0b0000100001 = .wcStore ∧ opOf 0b1111111001 = .wcStore ∧
    decodeCommand { cmd := 0b0010100001, A := 5, B := 6 } = .wcStore 0b0010100 5 6 := by decide
-- X7, X8, X9
theorem test_decode_wcNop : opOf 0b0000000001 = .wcNop ∧ opOf 0b1111011001 = .wcNop ∧
    decodeCommand { cmd := 0b0000011001, A := 5, B := 6 } = .wcNop 0b0000011 5 6 := by decide
-- X10
theorem test_decode_accReset :
    decodeCommand { cmd := 0b0001000010, A := 5, B := 6 } = .accReset 5 6 := by decide
-- X11
theorem test_decode_accMac0 :
    decodeCommand { cmd := 0b0010000010, A := 5, B := 6 } = .accMac0 5 6 := by decide
-- X12
theorem test_decode_accMac1 :
    decodeCommand { cmd := 0b0010001010, A := 5, B := 6 } = .accMac1 5 6 := by decide
-- X13
theorem test_decode_accMac2 :
    decodeCommand { cmd := 0b0010010010, A := 5, B := 6 } = .accMac2 5 6 := by decide
-- X14
theorem test_decode_accMac3 :
    decodeCommand { cmd := 0b0010011010, A := 5, B := 6 } = .accMac3 5 6 := by decide
-- X15 to X20
theorem test_decode_accRead : opOf 0b0000000010 = .accRead ∧ opOf 0b0010100010 = .accRead ∧
    opOf 0b1001000010 = .accRead ∧ opOf 0b0011000010 = .accRead ∧ opOf 0b0001001010 = .accRead ∧
    decodeCommand { cmd := 0b1111111010, A := 5, B := 6 } = .accRead 0b1111111 5 6 := by decide
-- X21 to X26
theorem test_decode_noSel : opOf 0b0000000011 = .noSel ∧ opOf 0b0000000100 = .noSel ∧
    opOf 0b0000000101 = .noSel ∧ opOf 0b0000000110 = .noSel ∧ opOf 0b0000000111 = .noSel ∧
    decodeCommand { cmd := 0b1111111111, A := 5, B := 6 } = .noSel 0b111 0b1111111 5 6 := by decide
-- R61: cmd = mod * 8 + sel
theorem test_packCommandWord : packCommandWord 0b010 0b0010011 = 0x09A := by decide
-- program P1, line 4: insn 0x20C5A50B with rd = a0, rs1 = a1, rs2 = a2
theorem test_hostWord : HostInsn.decode 0x20C5A50B =
    some { funct7 := 0b0010000, rs2 := 12, rs1 := 11, funct3 := 0b010, rd := 10 } ∧
    (HostInsn.mk 0b0000100 12 11 0b001 10).encode = 0x08C5950B ∧
    HostInsn.decode 0x20C5A533 = none := by decide

/-! ### One command each (spec/95_test_vectors.md 2.2 to 2.5) -/

-- W2
theorem test_cbStore : ran (exec (.cbStore 0b1111111 0 0x80FF7F00)
      (regs 0x11111111 0x2222222233333333 0x44)) =
    some (0x80FF7F00, 0x2222222233333333, 0x44, some 0x80FF7F00) := by decide
-- W3
theorem test_wcStore : ran (exec (.wcStore 0b0000100 0x01FFFA32 0x12ED547A)
      (regs 0x11111111 0x2222222233333333 0x44)) =
    some (0x11111111, 0x12ED547A01FFFA32, 0x44, some 0x01FFFA32) := by decide
-- W3, the four sets
theorem test_weightSets : weightSet 0x12ED547A01FFFA32 0 = 0xFA32 ∧
    weightSet 0x12ED547A01FFFA32 1 = 0x01FF ∧ weightSet 0x12ED547A01FFFA32 2 = 0x547A ∧
    weightSet 0x12ED547A01FFFA32 3 = 0x12ED := by decide
-- W8
theorem test_wcNop : ran (exec (.wcNop 0b0000011 0x01FFFA32 0x12ED547A)
      (regs 0x11111111 0x2222222233333333 0x44)) =
    some (0x11111111, 0x2222222233333333, 0x44, some 0) := by decide
-- Q3
theorem test_accReset : ran (exec (.accReset 0 0) (regs 0x04030201 0x12ED547A01FFFA32 0x53)) =
    some (0x04030201, 0x12ED547A01FFFA32, 0, some 0) := by decide
-- M3 and V1: sign extension, positive wrap
theorem test_accMac0 :
    ran (exec (.accMac0 0xFFFFFFFF 0xFBF6FFFE) (regs 0x04030201 0x12ED547A01FFFA32 0)) =
      some (0x04030201, 0x12ED547A01FFFA32, 0xFFFFFFB2, some 0xFFFFFFB2) ∧
    ran (exec (.accMac0 1 0) (regs 1 0 0x7FFFFFFF)) = some (1, 0, 0x80000000, some 0x80000000) := by
  decide
-- P1, lines 4 and 5: ACC 23, then 44
theorem test_accMac1 :
    ran (exec (.accMac1 0x01010101 0x01010101) (regs 0x04030201 0x12ED547A01FFFA32 0x17)) =
      some (0x04030201, 0x12ED547A01FFFA32, 0x2C, some 0x2C) := by decide
-- P3, line 5: negative centroids, set 0x5555
theorem test_accMac2 :
    ran (exec (.accMac2 0x01010101 0x01010101) (regs 0x7F80FF01 0xAAAA55550000E4E4 6)) =
      some (0x7F80FF01, 0xAAAA55550000E4E4, 0xFFFFFFFE, some 0xFFFFFFFE) := by decide
-- V5
theorem test_accMac3 : ran (exec (.accMac3 1 0) (regs 0x04030201 0x0003000000000000 5)) =
    some (0x04030201, 0x0003000000000000, 9, some 9) := by decide
-- Z4
theorem test_accRead : ran (exec (.accRead 0b1111111 0 0) (regs 0 0 0xFFFFFFB2)) =
    some (0, 0, 0xFFFFFFB2, some 0xFFFFFFB2) := by decide
-- U3: a MAC modifier under selector 4 is not a MAC
theorem test_noSel : ran (exec (decode 4 0b0010000 0x01010101 0x01010101)
      (regs 0x04030201 0x12ED547A01FFFA32 0x53)) =
    some (0x04030201, 0x12ED547A01FFFA32, 0x53, some 0) := by decide

-- M4, M5, M6, M14, M15, M18
theorem test_mac_extremes_and_pairing :
    mac 0x80808080 0x80808080 0x80808080 0x0000 = 131072 ∧
    mac 0x7F7F7F7F 0x7F7F7F7F 0x80808080 0x1234 = -130048 ∧
    mac 0x80808080 0x7F7F7F7F 0x80808080 0x0000 = 512 ∧
    mac 0x01010101 0 0x04030201 0xFF00 = 4 ∧ mac 0 0x01010101 0x04030201 0xFF00 = 16 ∧
    mac 0 0x80000000 0x04030201 0xC000 = -512 := by decide

/-! ### One turn of the interface -/

-- Q2: from reset every centroid is 0
theorem test_step_accepts_from_reset : ran (step (State.reset.withFetchWord 16 0b0010010010)) =
    some (0, 0, 0, some 0) := by decide
-- R172: reset dominates a held response and an offered command
theorem test_step_reset_in_flight :
    ran (step (driven [{ reset := true, cmd := some ⟨0x082, 1, 1⟩, rspReady := true }] (some 7))) =
      some (0, 0, 0, none) := by decide
-- R182: no command is accepted while a response is held
theorem test_step_holding_engine_accepts_nothing :
    ran (step (driven [HostInput.offer ⟨0x042, 0, 0⟩] (some 7))) = some (1, 2, 3, some 7) := by decide
-- R63: the transferred word joins the record
theorem test_step_transfers : (match step (driven [HostInput.take] (some 7)) with
    | .next t => t.responses | .fault _ => [] | .refused _ => []) = [9, 7] := by decide

/-! ### Witnesses: each statement's hypotheses can be met, clause by clause -/

theorem witness_DecodeFollowsDispatchTable :
    (0b0000100 : Modifier).getLsbD 2 = true ∧ (0b1111011 : Modifier).getLsbD 2 = false ∧
    ((0b0001111 : Modifier) ≠ 0b0001000 ∧ (0b0001111 : Modifier).toNat < 16) ∧
    ((0b0010100 : Modifier) ≠ 0b0001000 ∧ 19 < (0b0010100 : Modifier).toNat) ∧
    3 ≤ (0b011 : Selector).toNat ∧ 3 ≤ (0b111 : Selector).toNat := by decide

theorem witness_DecodeOfEncodeIsInstruction :
    (Instr.accRead 0b0010100 7 8).wf = true ∧ (Instr.noSel 3 127 7 8).wf = true ∧
      (Instr.wcStore 4 7 8).wf = true ∧ (Instr.wcNop 0 7 8).wf = true := by decide

theorem witness_HostWordsRoundTrip : ∃ h, HostInsn.decode 0x0000000B = some h := ⟨_, rfl⟩

theorem witness_AssemblerLineDecodesToNamedOperation :
    (Asm.accMac 3 (some 1) (some 2)).wf = true ∧
    (Asm.accMac 3 (some 1) (some 2)).op = some .accMac3 ∧
    (Asm.wcStore none (some 1) (some 2)).wf = true ∧
    (Asm.wcStore (some 0b1111111) (some 1) (some 2)).wf = true ∧
    (Asm.wcNop none none (some 2)).wf = true ∧ (Asm.wcNop (some 0b1111011) none none).wf = true ∧
    (Asm.accRead none none none).wf = true ∧ (Asm.accRead (some 0b0010100) none none).wf = true ∧
    (Asm.noSel (some (3, 0)) none none).wf = true ∧
    (Asm.noSel (some (7, 127)) none none).wf = true ∧
    (Asm.noSel (some (7, 127)) none none).op = some .noSel := by decide

theorem witness_CbStoreLoadsWholeCodebook :
    ∀ i ∈ [Instr.wcStore 4 1 2, .accMac1 3 4, .accReset 0 0, .noSel 3 0 0 0], i.op ≠ .cbStore := by
  decide

theorem witness_AccumulateWrapsModuloTwoToThe32 :
    ((0x7FFFFFFE : Word).toInt + 1 ≤ 2147483647 ∧ -2147483648 ≤ (0x7FFFFFFE : Word).toInt + 1) ∧
    (2147483647 < (0x7FFFFFFF : Word).toInt + 1 ∧ (0x7FFFFFFF : Word).toInt + 1 ≤ 4294967295) ∧
    ((0x80000000 : Word).toInt + -1 < -2147483648 ∧
      -4294967296 ≤ (0x80000000 : Word).toInt + -1) := by decide

theorem witness_WcStoreLoadsWholeWeightCodeWord : (0b0000100 : Modifier).getLsbD 2 = true := by decide

theorem witness_WcNopReturnsZero : (0b1111011 : Modifier).getLsbD 2 = false := by decide

/-- For the clauses of ACC.MAC0 to ACC.MAC3 on the codebook and on the last WC.STORE. -/
theorem witness_AccumulatesWithSet :
    (regs 0 5 6).CB = 0 ∧ (regs 0x80808080 5 6).CB = 0x80808080 ∧
    (∀ i ∈ [Instr.cbStore 0 0 7, .accMac1 1 2, .accReset 0 0], i.op ≠ .wcStore) := by decide

theorem witness_AccReadReturnsAccumulator :
    (20 : Modifier) ≠ 8 ∧ (20 : Modifier) ≠ 16 ∧ (20 : Modifier) ≠ 17 ∧ (20 : Modifier) ≠ 18 ∧
      (20 : Modifier) ≠ 19 := by decide

theorem witness_NoSelReturnsZero : (0b111 : Selector) = 0b011 ∨ (0b111 : Selector) = 0b100 ∨
    (0b111 : Selector) = 0b101 ∨ (0b111 : Selector) = 0b110 ∨ (0b111 : Selector) = 0b111 := by decide

theorem witness_EachCommandWritesOnlyItsRegister :
    (∃ t, exec (.accMac3 1 2) (regs 1 2 3) = .next t) ∧ (Instr.accMac3 1 2).op ≠ .cbStore ∧
      (Instr.accMac3 1 2).op ≠ .wcStore ∧ (∃ t, exec (.wcNop 0 1 2) (regs 1 2 3) = .next t) ∧
      (Instr.wcNop 0 1 2).op ∉ [Op.accReset, .accMac0, .accMac1, .accMac2, .accMac3] :=
  ⟨⟨_, exec_accMac3 _ _ _⟩, by decide, by decide, ⟨_, exec_wcNop _ _ _ _⟩, by decide⟩

/-- Two different states that agree on set 3, `CB` and `ACC`. -/
theorem witness_MacReadsOnlyItsSet :
    (regs 1 0xABCD000000000000 2).CB = (regs 1 0xABCD111122223333 2).CB ∧
    (regs 1 0xABCD000000000000 2).ACC = (regs 1 0xABCD111122223333 2).ACC ∧
    (regs 1 0xABCD000000000000 2).WCW.extractLsb' (16 * (3 : Fin 4).val) 16 =
      (regs 1 0xABCD111122223333 2).WCW.extractLsb' (16 * (3 : Fin 4).val) 16 := by decide

theorem witness_IdempotentAndPureCommands :
    (Instr.wcStore 4 1 2).op = .wcStore ∧
    (∀ i ∈ [Instr.accRead 0 1 2, .wcNop 0 1 2, .noSel 3 0 1 2],
      i.op = .accRead ∨ i.op = .wcNop ∨ i.op = .noSel) := by decide

theorem witness_CodebookIsObservableThroughMac :
    (0x1234FFFF : Word).extractLsb' 0 16 = BitVec.ofNat 16 (0x5555 * (3 : Fin 4).val) := by decide

theorem witness_WeightStorePackingLaw :
    ∀ i ∈ [Instr.cbStore 0 0 7, .accMac1 1 2, .accReset 0 0], i.op ≠ .wcStore := by decide

theorem witness_AccumulationIsAdditive :
    ∀ i ∈ [Instr.accMac0 1 2, .wcStore 4 1 2, .accMac3 3 4], i.op ≠ .accReset := by decide

theorem witness_ZeroCodebookAddsNothing : State.reset.CB = 0 := by decide

theorem witness_StepRunsDecodedCommand :
    (driven [HostInput.offer (encode (.accMac0 1 2))] none).inputs =
      HostInput.offer (encode (.accMac0 1 2)) :: [] ∧
    (HostInput.offer (encode (.accMac0 1 2))).reset = false ∧
    (driven [HostInput.offer (encode (.accMac0 1 2))] none).held = none ∧
    (HostInput.offer (encode (.accMac0 1 2))).cmd = some (encode (.accMac0 1 2)) ∧
    (Instr.accMac0 1 2).wf = true := by decide

theorem witness_FetchWordRunsTableInstruction :
    decodeTableWord 16 0x082 = some (.accMac0 0 0) := by decide

theorem witness_HardwareResetAbandonsCommand :
    (driven [HostInput.assertReset, HostInput.take] (some 5)).inputs =
      HostInput.assertReset :: [HostInput.take] ∧ HostInput.assertReset.reset = true := by decide

theorem witness_ReadyHostTakesHeldResponse :
    (driven [HostInput.take] (some 5)).inputs = HostInput.take :: [] ∧
    HostInput.take.reset = false ∧ (driven [HostInput.take] (some 5)).held = some 5 ∧
    HostInput.take.rspReady = true := by decide

/-- No input; an idle engine with no command; a holding engine with a host that is not ready. -/
theorem witness_QuietTurnChangesNothing :
    (driven [] none).inputs = [] ∧
    ((driven [HostInput.take] none).held = none ∧ HostInput.take.cmd = none) ∧
    ((driven [HostInput.offer ⟨0, 0, 0⟩] (some 1)).held ≠ none ∧
      (HostInput.offer ⟨0, 0, 0⟩).rspReady = false ∧ (HostInput.offer ⟨0, 0, 0⟩).reset = false) := by
  decide

theorem witness_StalledEngineAcceptsNothing :
    (driven [HostInput.offer ⟨0, 0, 0⟩, HostInput.take] (some 1)).held ≠ none ∧
    ∀ inp ∈ (driven [HostInput.offer ⟨0, 0, 0⟩, HostInput.take] (some 1)).inputs.take 1,
      inp.reset = false ∧ inp.rspReady = false := by decide

theorem witness_AcceptedCommandGetsItsResponse :
    (driven [HostInput.offer ⟨0x082, 1, 2⟩, HostInput.offer ⟨0, 0, 0⟩, HostInput.take] none).held =
      none ∧
    (driven [HostInput.offer ⟨0x082, 1, 2⟩, HostInput.offer ⟨0, 0, 0⟩, HostInput.take] none).inputs =
      HostInput.offer ⟨0x082, 1, 2⟩ :: ([HostInput.offer ⟨0, 0, 0⟩] ++ HostInput.take :: []) ∧
    (HostInput.offer ⟨0x082, 1, 2⟩).reset = false ∧
    (HostInput.offer ⟨0x082, 1, 2⟩).cmd = some ⟨0x082, 1, 2⟩ ∧
    (∀ inp ∈ [HostInput.offer ⟨0, 0, 0⟩], inp.reset = false ∧ inp.rspReady = false) ∧
    HostInput.take.reset = false ∧ HostInput.take.rspReady = true := by decide

theorem witness_TransactionsComputeReferenceRun :
    (driven (transactions [⟨0, 0, 7⟩, ⟨0x082, 1, 2⟩] ++ [HostInput.take]) none).held = none ∧
    (driven (transactions [⟨0, 0, 7⟩, ⟨0x082, 1, 2⟩] ++ [HostInput.take]) none).inputs =
      transactions [⟨0, 0, 7⟩, ⟨0x082, 1, 2⟩] ++ [HostInput.take] := by decide

theorem witness_EverySchedulePreservesCommandOrder :
    (∀ inp ∈ (driven [HostInput.take, HostInput.offer ⟨0x082, 1, 2⟩] (some 4)).inputs,
      inp.reset = false) ∧
    acceptedCommands true [HostInput.take, HostInput.offer ⟨0x082, 1, 2⟩] = [⟨0x082, 1, 2⟩] := by
  decide

/-- A schedule with a reset in it: one turn before the last reset, one after. -/
theorem witness_EverySchedulePreservesCommandOrder_reset :
    (driven [HostInput.take, HostInput.assertReset, HostInput.offer ⟨0x082, 1, 2⟩] (some 4)).inputs =
      [HostInput.take] ++ HostInput.assertReset :: [HostInput.offer ⟨0x082, 1, 2⟩] ∧
    HostInput.assertReset.reset = true ∧
    (∀ inp ∈ [HostInput.offer ⟨0x082, 1, 2⟩], inp.reset = false) := by decide

/-- Each register changes in some step: by a CB.STORE, a WC.STORE, an ACC.RESET, and a reset. -/
theorem witness_RegistersChangeOnlyByTheirWriters :
    (ran (step (driven [HostInput.offer ⟨0x000, 0, 7⟩] none))).map (·.1) = some 7 ∧
    (ran (step (driven [HostInput.offer ⟨0x021, 7, 0⟩] none))).map (·.2.1) = some 7 ∧
    (ran (step (driven [HostInput.offer ⟨0x042, 0, 0⟩] none))).map (·.2.2.1) = some 0 ∧
    (driven [] none).CB = 1 ∧ (driven [] none).WCW = 2 ∧ (driven [] none).ACC = 3 := by decide

theorem witness_TransferredResponsesOnlyGrow :
    ∃ t, step (driven [HostInput.take] (some 5)) = .next t :=
  ⟨_, step_of_respond (r := 5) (by decide)⟩

theorem witness_HeldResponseReflectsRegistersKept :
    (driven [HostInput.take] (some 3)).HeldReflectsRegisters ∧
    ∃ t, step (driven [HostInput.take] (some 3)) = .next t :=
  ⟨fun _ h => by cases h; exact .inr (.inr (.inr rfl)), _, step_of_respond (r := 3) (by decide)⟩

/-- The invariant can fail in a state that no run reaches. -/
theorem witness_HeldResponseReflectsRegisters_can_fail :
    ¬ (driven [] (some 5)).HeldReflectsRegisters := fun h => by
  rcases h 5 rfl with h | h | h | h <;> revert h <;> decide

theorem witness_EnginesShareNoState :
    ([driven [HostInput.take] (some 5), State.reset] : EngineArray)[0]? =
      some (driven [HostInput.take] (some 5)) ∧ (1 : Nat) ≠ 0 := ⟨rfl, by decide⟩

end Sys2Proof.Tests
end

section
/-! PROOFS. The operand extractions of the model against the source's shift-and-mask forms
(spec/00_scope.md R12, spec/20_memory.md R41): each is the same quotient and remainder of the
word. -/

namespace Sys2Proof.Machine

/-- Shifting right and masking the low `k` bits is a quotient and a remainder. -/
theorem toNat_ushiftRight_and_mask {w k : Nat} (x : BitVec w) (j : Nat) (hk : k ≤ w) :
    ((x >>> j) &&& BitVec.ofNat w (2 ^ k - 1)).toNat = x.toNat / 2 ^ j % 2 ^ k := by
  have hmask : 2 ^ k - 1 < 2 ^ w :=
    (Nat.sub_one_lt (Nat.two_pow_pos k).ne').trans_le (Nat.pow_le_pow_right two_pos hk)
  rw [BitVec.toNat_and, BitVec.toNat_ofNat, Nat.mod_eq_of_lt hmask,
    Nat.and_two_pow_sub_one_eq_mod, BitVec.toNat_ushiftRight, Nat.shiftRight_eq_div_pow]

/-- A byte lane read as signed is the byte masked out first and sign-extended after (R12). -/
theorem byteLane_toInt_eq_sbyte (w : Word) (n : Fin 4) :
    (byteLane w n).toInt = Spec.sbyte w n.val := by
  have hmask : ((w >>> (n.val * 8)) &&& 0xFF).toNat = (byteLane w n).toNat := by
    rw [byteLane_toNat, Nat.mul_comm 8]
    exact toNat_ushiftRight_and_mask w _ (k := 8) (by decide)
  rw [Spec.sbyte, hmask, BitVec.toInt_eq_toNat_cond]
  split <;> split <;> omega

/-- A code is the unsigned index the source masks out of its set (R12). -/
theorem code_val_eq_specCode (s : WeightSet) (n : Fin 8) : (code s n).val = Spec.code s n.val := by
  rw [code_val, Nat.mul_comm 2]
  exact (toNat_ushiftRight_and_mask s _ (k := 2) (by decide)).symm

/-- A weight-code set is the 16 bits the source masks out of the weight-code word (R12). -/
theorem weightSet_eq_specSet (W : WeightCodeWord) (k : Fin 4) :
    weightSet W k = Spec.set W k.val := by
  have hmask := toNat_ushiftRight_and_mask W (k.val * 16) (k := 16) (by decide)
  apply BitVec.eq_of_toNat_eq
  rw [weightSet_toNat, Nat.mul_comm 16, Spec.set, BitVec.toNat_setWidth]
  exact ((congrArg (· % 2 ^ 16) hmask).trans (Nat.mod_mod _ _)).symm

/-- Code `n` of set `k` stands at bits `16k+2n+1:16k+2n` of the weight-code word (R41): the set's
sixteen bits hold all of the code's two. -/
theorem code_weightSet_val (W : WeightCodeWord) (k : Fin 4) (n : Fin 8) :
    (code (weightSet W k) n).val = W.toNat / 2 ^ (16 * k.val + 2 * n.val) % 4 := by
  have hwidth : 65536 = 2 ^ (2 * n.val) * 2 ^ (16 - 2 * n.val) := by
    rw [← Nat.pow_add, Nat.add_sub_of_le (show 2 * n.val ≤ 16 by omega)]
  have hcode : 4 ∣ 2 ^ (16 - 2 * n.val) :=
    show 2 ^ 2 ∣ 2 ^ (16 - 2 * n.val) from Nat.pow_dvd_pow 2 (by omega)
  rw [code_val, weightSet_toNat, hwidth, Nat.mod_mul_right_div_self, Nat.mod_mod_of_dvd _ hcode,
    Nat.div_div_eq_div_mul, ← Nat.pow_add]

end Sys2Proof.Machine

namespace Sys2Proof.Proofs

open Sys2Proof.Machine

/-- Settles O9: the reference's forms and the arithmetic ones agree for bytes, codes and sets, and a
code of a set is a code of the whole weight-code word. -/
theorem lanesAreShiftAndMask : Obligations.LanesAreShiftAndMask :=
  ⟨fun w n => ⟨byteLane_toInt_eq_sbyte w n, byteLane_toNat w n⟩,
    fun s n => ⟨code_val_eq_specCode s n, code_val s n⟩,
    fun W k => ⟨weightSet_eq_specSet W k, weightSet_toNat W k⟩,
    code_weightSet_val⟩

end Sys2Proof.Proofs
end

section
/-! PROOFS. Which steps change an architectural register (spec/10_state.md R21, R23 to R25): a command
writes at most the one register its operation owns, and no other turn but reset writes any. -/

namespace Sys2Proof.Machine

/-- The operations that write `CB` (R23). -/
def writesCB (o : Op) : Bool := o == .cbStore

/-- The operations that write `WCW` (R24). -/
def writesWCW (o : Op) : Bool := o == .wcStore

/-- The operations that write `ACC` (R25). -/
def writesACC (o : Op) : Bool :=
  o == .accReset || o == .accMac0 || o == .accMac1 || o == .accMac2 || o == .accMac3

/-- The coming turn asserts reset, or an idle engine accepts a command whose operation `writes`. -/
def State.ResetOrAccepts (s : State) (writes : Op → Bool) : Prop :=
  ∃ inp rest, s.inputs = inp :: rest ∧
    (inp.reset = true ∨
      (s.held = none ∧ ∃ c, inp.cmd = some c ∧ writes (decodeCommand c).op = true))

variable {s t : State} {i : Instr}

/-- A command that changes a register has an operation that writes it. -/
theorem writer_of_exec_changes (h : exec i s = .next t) :
    (t.CB ≠ s.CB → writesCB i.op = true) ∧
    (t.WCW ≠ s.WCW → writesWCW i.op = true) ∧
    (t.ACC ≠ s.ACC → writesACC i.op = true) := by
  cases i with
  | cbStore => cases h; exact ⟨fun _ => rfl, absurd rfl, absurd rfl⟩
  | wcStore => cases h; exact ⟨absurd rfl, fun _ => rfl, absurd rfl⟩
  | accReset | accMac0 | accMac1 | accMac2 | accMac3 =>
    cases h; exact ⟨absurd rfl, absurd rfl, fun _ => rfl⟩
  | wcNop | accRead | noSel => cases h; exact ⟨absurd rfl, absurd rfl, absurd rfl⟩

/-- A step that changes a register `reg` is a reset or accepts a command that writes it, provided a
command that changes `reg` has an operation that `writes`: the other turns keep every register. -/
theorem resetOrAccepts_of_step_changes {α : Type} (reg : Spec.Regs → α) (writes : Op → Bool)
    (hexec : ∀ {i : Instr} {s t : State}, exec i s = .next t → reg t.regs ≠ reg s.regs →
      writes i.op = true)
    (h : step s = .next t) (hne : reg t.regs ≠ reg s.regs) : s.ResetOrAccepts writes := by
  obtain ⟨-, rfl⟩ | ⟨hturn, -⟩ | ⟨r, -, -, rfl⟩ | ⟨c, hturn, -, he⟩ := step_cases h
  · exact absurd rfl hne
  · obtain ⟨inp, rest, hin, hreset⟩ := reset_of_turn_reset hturn
    exact ⟨inp, rest, hin, .inl hreset⟩
  · exact absurd rfl hne
  · obtain ⟨hidle, inp, rest, hin, -, hcmd⟩ := idle_of_turn_accept hturn
    exact ⟨inp, rest, hin, .inr ⟨hidle, c, hcmd, hexec he hne⟩⟩

end Sys2Proof.Machine

namespace Sys2Proof.Proofs

open Sys2Proof.Machine

/-- Settles O44: for each register, from the step's turn and the operations that write it. -/
theorem registersChangeOnlyByTheirWriters : Obligations.RegistersChangeOnlyByTheirWriters :=
  fun _ _ h =>
    ⟨resetOrAccepts_of_step_changes Spec.Regs.CB writesCB (writer_of_exec_changes · |>.1) h,
      resetOrAccepts_of_step_changes Spec.Regs.WCW writesWCW (writer_of_exec_changes · |>.2.1) h,
      resetOrAccepts_of_step_changes Spec.Regs.ACC writesACC (writer_of_exec_changes · |>.2.2) h⟩

end Sys2Proof.Proofs
end

section
/-! PROOFS. The model's MAC datapath and its accumulate step against the reference's (spec/41_mac.md
R101, R105, R106), and the weight-code word against the source's shift and or (spec/40_store.md
R84). -/

namespace Sys2Proof.Machine

variable (A B CB : Word) (k : Fin 4) (s : State)

/-- A tap is the reference's product of the selected centroid and an operand byte (R101, R103). -/
theorem tap_eq_sbyte_mul (set : WeightSet) (n : Fin 8) (w : Word) (i : Fin 4) :
    tap CB set n w i = Spec.sbyte CB (Spec.code set n.val) * Spec.sbyte w i.val := by
  simp only [tap, product, virtualWeight, byteLane_toInt_eq_sbyte, code_val_eq_specCode]

/-- The model's eight-tap sum is the reference's dot product (R105). -/
theorem mac_eq_specMac (set : WeightSet) : mac A B CB set = Spec.mac A B CB set := by
  simp only [mac, Spec.mac, tap_eq_sbyte_mul]
  simp [List.range_succ, add_assoc]

/-- What ACC.MACk leaves in `ACC` is the reference's exact sum kept modulo 2^32 (R106). -/
theorem accumulate_ACC_eq_ofInt : (s.accumulate k A B).ACC =
    BitVec.ofInt 32 (s.ACC.toInt + Spec.mac A B s.CB (Spec.set s.WCW k.val)) := by
  rw [State.accumulate_ACC, wrapAdd_eq_ofInt, mac_eq_specMac, weightSet_eq_specSet]

/-- The whole accumulate step in the reference's terms: the new `ACC` is the result. -/
theorem accumulate_eq_result : s.accumulate k A B =
    (s.setACC (Spec.accumulate k.val A B s.regs)).result (Spec.accumulate k.val A B s.regs) := by
  have hACC : (s.accumulate k A B).ACC = Spec.accumulate k.val A B s.regs :=
    accumulate_ACC_eq_ofInt A B k s
  rw [← hACC]
  rfl

/-- `{B, A}` is the source's `(B << 32) | A` on 64 bits (R84). -/
theorem weightCodeWord_eq_pair (lo hi : Word) : weightCodeWord lo hi = Spec.pair lo hi := by
  rw [weightCodeWord, BitVec.append_def, BitVec.shiftLeftZeroExtend_eq]
  rfl

end Sys2Proof.Machine
end

section
/-! PROOFS. The decoded command against the reference's step function (spec/42_default.md R145), branch
by branch of the decoder. -/

namespace Sys2Proof.Machine

variable (sel : Selector) (mod : Modifier) (A B : Word) (s : State)

/-- The state a command leaves whose reference run answers the result and the registers `o`: the
result is held, and the interface's two lists stay. -/
def State.committed (s : State) (o : Word × Spec.Regs) : State := (s.withRegs o.2).result o.1

/-- The test of R66 on `mod[2]` is the reference's test on `mod & 0b100`. -/
theorem modifier_and_four_eq_zero_iff : mod &&& 0b100 = 0 ↔ mod.getLsbD 2 = false := by
  rw [show (0b100 : Modifier) = BitVec.twoPow 7 2 from rfl, BitVec.and_twoPow]
  cases mod.getLsbD 2 <;> decide

/-- Selector 0: CB.STORE. -/
theorem exec_decode_selector_zero :
    exec (decode 0b000 mod A B) s = .next (s.committed (Spec.execute 0b000 mod A B s.regs)) := rfl

/-- Selector 1: bit 2 of the modifier tells WC.STORE from WC.NOP. -/
theorem exec_decode_selector_one :
    exec (decode 0b001 mod A B) s = .next (s.committed (Spec.execute 0b001 mod A B s.regs)) := by
  have hand := modifier_and_four_eq_zero_iff mod
  cases hbit : mod.getLsbD 2 with
  | true =>
    have hdec : decode 0b001 mod A B = .wcStore mod A B := if_pos hbit
    have hspec : Spec.execute 0b001 mod A B s.regs = (A, { s.regs with WCW := Spec.pair A B }) :=
      if_neg (fun hz => Bool.eq_false_iff.mp (hand.mp hz) hbit)
    rw [hdec, hspec, exec_wcStore, weightCodeWord_eq_pair]
    rfl
  | false =>
    have hdec : decode 0b001 mod A B = .wcNop mod A B :=
      if_neg (Bool.eq_false_iff.mp hbit)
    have hspec : Spec.execute 0b001 mod A B s.regs = (0, s.regs) := if_pos (hand.2 hbit)
    rw [hdec, hspec]
    rfl

/-- Selector 2 with an ACC.MACk modifier. -/
theorem exec_decode_mac (k : Fin 4) :
    exec (decode 0b010 (0b0010000 + BitVec.ofNat 7 k.val) A B) s =
      .next (s.committed (Spec.execute 0b010 (0b0010000 + BitVec.ofNat 7 k.val) A B s.regs)) := by
  have hdec : decode 0b010 (0b0010000 + BitVec.ofNat 7 k.val) A B = macInstr k A B := by
    fin_cases k <;> rfl
  have hspec : Spec.execute 0b010 (0b0010000 + BitVec.ofNat 7 k.val) A B s.regs =
      (Spec.accumulate k.val A B s.regs,
        { s.regs with ACC := Spec.accumulate k.val A B s.regs }) := by
    fin_cases k <;> rfl
  rw [hdec, hspec, exec_macInstr, accumulate_eq_result]
  rfl

/-- Selector 2 with a modifier that is not listed: ACC.READ. -/
theorem exec_decode_accRead (h : mod ∉ listedAccModifiers) :
    exec (decode 0b010 mod A B) s = .next (s.committed (Spec.execute 0b010 mod A B s.regs)) := by
  simp only [listedAccModifiers, List.mem_cons, List.not_mem_nil, or_false, not_or] at h
  obtain ⟨hreset, h0, h1, h2, h3⟩ := h
  have hdec : decode 0b010 mod A B = .accRead mod A B := by
    rw [decode, if_neg (by decide), if_neg (by decide), if_pos rfl, if_neg hreset, if_neg h0,
      if_neg h1, if_neg h2, if_neg h3]
  have hspec : Spec.execute 0b010 mod A B s.regs = (s.ACC, s.regs) :=
    (if_neg (by bv_omega)).trans (if_neg (by bv_omega))
  rw [hdec, hspec]
  rfl

/-- Selector 2: the accumulator operations. -/
theorem exec_decode_selector_two :
    exec (decode 0b010 mod A B) s = .next (s.committed (Spec.execute 0b010 mod A B s.regs)) := by
  by_cases hlisted : mod ∈ listedAccModifiers
  · simp only [listedAccModifiers, List.mem_cons, List.not_mem_nil, or_false] at hlisted
    obtain rfl | rfl | rfl | rfl | rfl := hlisted
    · rfl
    · exact exec_decode_mac A B s 0
    · exact exec_decode_mac A B s 1
    · exact exec_decode_mac A B s 2
    · exact exec_decode_mac A B s 3
  · exact exec_decode_accRead mod A B s hlisted

/-- Selectors 3 to 7: NOSEL. -/
theorem exec_decode_noSel (h0 : sel ≠ 0b000) (h1 : sel ≠ 0b001) (h2 : sel ≠ 0b010) :
    exec (decode sel mod A B) s = .next (s.committed (Spec.execute sel mod A B s.regs)) := by
  have hdec : decode sel mod A B = .noSel sel mod A B := by
    rw [decode, if_neg h0, if_neg h1, if_neg h2]
  have hspec : Spec.execute sel mod A B s.regs = (0, s.regs) := by
    unfold Spec.execute
    split
    · exact absurd ‹_› (by bv_omega)
    · exact absurd ‹_› (by bv_omega)
    · exact absurd ‹_› (by bv_omega)
    · rfl
  rw [hdec, hspec]
  rfl

/-- Running the decoded command is the reference's step function (R145). -/
theorem exec_decode :
    exec (decode sel mod A B) s = .next (s.committed (Spec.execute sel mod A B s.regs)) := by
  by_cases h0 : sel = 0b000
  · subst h0
    exact exec_decode_selector_zero mod A B s
  by_cases h1 : sel = 0b001
  · subst h1
    exact exec_decode_selector_one mod A B s
  by_cases h2 : sel = 0b010
  · subst h2
    exact exec_decode_selector_two mod A B s
  exact exec_decode_noSel sel mod A B s h0 h1 h2

/-- The same for what the command channel carries. -/
theorem exec_decodeCommand (c : Command) :
    exec (decodeCommand c) s = .next (s.committed (Spec.executeCommand c s.regs)) :=
  exec_decode c.sel c.mod c.A c.B s

end Sys2Proof.Machine
end

section
/-! PROOFS. Commands done again, and commands that only read (spec/20_memory.md R46). -/

namespace Sys2Proof.Machine

variable {i : Instr} {s t : State}

/-- A load or ACC.RESET done again in the state it left changes nothing more. -/
theorem exec_again_of_load (hop : i.op = .cbStore ∨ i.op = .wcStore ∨ i.op = .accReset)
    (h : exec i s = .next t) : exec i t = .next t := by
  cases i with
  | cbStore | wcStore | accReset => cases h; rfl
  | wcNop | accMac0 | accMac1 | accMac2 | accMac3 | accRead | noSel => simp [Instr.op] at hop

/-- A read or a fallback leaves the three registers: its operation writes none of them. -/
theorem regs_of_exec_read (hop : i.op = .accRead ∨ i.op = .wcNop ∨ i.op = .noSel)
    (h : exec i s = .next t) : t.regs = s.regs := by
  cases i with
  | wcNop | accRead | noSel => cases h; rfl
  | cbStore | wcStore | accReset | accMac0 | accMac1 | accMac2 | accMac3 => simp [Instr.op] at hop

/-- Any sequence of reads and fallbacks leaves the three registers. -/
theorem execAll_reads_keep_regs (is : List Instr) (s : State)
    (hops : ∀ i ∈ is, i.op = .accRead ∨ i.op = .wcNop ∨ i.op = .noSel) :
    ∃ t, execAll is s = .next t ∧ t.regs = s.regs := by
  induction is generalizing s with
  | nil => exact ⟨s, rfl, rfl⟩
  | cons i is ih =>
    obtain ⟨hop, hrest⟩ := List.forall_mem_cons.mp hops
    obtain ⟨u, hu, -⟩ := exec_next i s
    obtain ⟨t, ht, hregs⟩ := ih u hrest
    exact ⟨t, (execAll_cons hu).trans ht, hregs.trans (regs_of_exec_read hop hu)⟩

/-- One accumulate step adds its contribution to `ACC` in 32-bit arithmetic. -/
theorem accumulate_ACC_eq_add (k : Fin 4) (A B : Word) (s : State) : (s.accumulate k A B).ACC =
    s.ACC + BitVec.ofInt 32 (Spec.mac A B s.CB (Spec.set s.WCW k.val)) := by
  rw [accumulate_ACC_eq_ofInt, BitVec.ofInt_add, BitVec.ofInt_toInt]

/-- The same ACC.MACk `n` times adds `n` times the contribution that it finds the first time: no
accumulate step changes the codebook or the weight codes. -/
theorem execAll_replicate_macInstr (n : Nat) (k : Fin 4) (A B : Word) (s : State) :
    ∃ t, execAll (List.replicate n (macInstr k A B)) s = .next t ∧
      t.ACC = s.ACC + BitVec.ofInt 32 (n * Spec.mac A B s.CB (Spec.set s.WCW k.val)) := by
  induction n generalizing s with
  | zero => exact ⟨s, rfl, by simp⟩
  | succ n ih =>
    obtain ⟨t, ht, hACC⟩ := ih (s.accumulate k A B)
    refine ⟨t, (execAll_cons (exec_macInstr A B s k)).trans ht, ?_⟩
    rw [hACC, accumulate_ACC_eq_add, State.accumulate_CB, State.accumulate_WCW, BitVec.add_assoc,
      ← BitVec.ofInt_add, Nat.cast_succ, add_one_mul, add_comm (n * _ : Int)]

end Sys2Proof.Machine

namespace Sys2Proof.Proofs

open Sys2Proof.Machine

/-- Settles O28: the second load finds its own value, reads by induction over the sequence, and
ACC.MACk by induction on how often it is done. -/
theorem idempotentAndPureCommands : Obligations.IdempotentAndPureCommands := by
  refine ⟨fun i s hop => ?_, execAll_reads_keep_regs, fun n k A B s => ?_⟩
  · obtain ⟨t, ht, -⟩ := exec_next i s
    rw [execAll_cons ht, execAll_cons ht, execAll_cons (exec_again_of_load hop ht)]
  · obtain ⟨t, ht, hACC⟩ := execAll_replicate_macInstr n k A B s
    exact ⟨t, ht, by rw [hACC, BitVec.ofInt_add, BitVec.ofInt_toInt]⟩

end Sys2Proof.Proofs
end

section
/-! PROOFS. The machine's run over the host's inputs against the reference of the interface
(spec/20_memory.md R49, spec/30_encoding.md R63, spec/70_reset_and_hazards.md R170 to R182): one turn
commutes with one step of `scheduleRun`, and a run is an induction over the inputs. -/

namespace Sys2Proof.Machine

section reference

variable {inp : HostInput} (out : Option Word) (r : Word) (st : Spec.Regs) (ins : List HostInput)

/-! One equation of the reference per kind of turn. -/

theorem scheduleRun_of_reset (hr : inp.reset = true) :
    scheduleRun out st (inp :: ins) = scheduleRun none Spec.resetRegs ins := by
  simp [scheduleRun, hr]

theorem scheduleRun_of_ready (hr : inp.reset = false) (hy : inp.rspReady = true) :
    scheduleRun (some r) st (inp :: ins) =
      (r :: (scheduleRun none st ins).1, (scheduleRun none st ins).2) := by
  simp [scheduleRun, hr, hy]

theorem scheduleRun_of_stall (hr : inp.reset = false) (hy : inp.rspReady = false) :
    scheduleRun (some r) st (inp :: ins) = scheduleRun (some r) st ins := by
  simp [scheduleRun, hr, hy]

theorem scheduleRun_of_idle (hr : inp.reset = false) (hc : inp.cmd = none) :
    scheduleRun none st (inp :: ins) = scheduleRun none st ins := by
  simp [scheduleRun, hr, hc]

theorem scheduleRun_of_offer {c : Command} (hr : inp.reset = false) (hc : inp.cmd = some c) :
    scheduleRun none st (inp :: ins) =
      scheduleRun (some (Spec.executeCommand c st).1) (Spec.executeCommand c st).2 ins := by
  simp [scheduleRun, hr, hc]

end reference

/-- The state after a run whose reference answers `o` (the words transferred, the response then
outstanding, the registers) and which leaves the inputs `rest`. -/
def State.afterSchedule (s : State) (o : List Word × Option Word × Spec.Regs)
    (rest : List HostInput) : State :=
  { s.withRegs o.2.2 with held := o.2.1, responses := s.responses ++ o.1, inputs := rest }

theorem State.afterSchedule_nil (s : State) :
    s.afterSchedule (scheduleRun s.held s.regs []) s.inputs = s := by
  simp [State.afterSchedule, scheduleRun]

/-- One turn commutes with the reference: from the state the step leaves, the reference over any
further inputs leads where it leads from `s` with this turn's input in front. -/
theorem step_commutes_with_scheduleRun {s : State} {inp : HostInput} {rest : List HostInput}
    (h : s.inputs = inp :: rest) :
    ∃ t, step s = .next t ∧ t.inputs = rest ∧ ∀ ins rest',
      t.afterSchedule (scheduleRun t.held t.regs ins) rest' =
        s.afterSchedule (scheduleRun s.held s.regs (inp :: ins)) rest' := by
  have htail : s.endTurn.inputs = rest := by simp [h]
  cases hr : inp.reset with
  | true =>
    refine ⟨_, step_of_reset (turn_of_reset h hr), htail, fun ins rest' => ?_⟩
    rw [scheduleRun_of_reset _ _ _ hr]
    rfl
  | false =>
    cases hh : s.held with
    | some r =>
      cases hy : inp.rspReady with
      | true =>
        refine ⟨_, step_of_respond (turn_of_ready h hr hh hy), htail, fun ins rest' => ?_⟩
        rw [scheduleRun_of_ready _ _ _ hr hy, State.afterSchedule, State.transferResponse_responses,
          List.append_assoc]
        rfl
      | false =>
        refine ⟨_, step_of_quiet (turn_of_stall h hr hh hy), htail, fun ins rest' => ?_⟩
        rw [scheduleRun_of_stall _ _ _ hr hy, ← hh]
        rfl
    | none =>
      cases hc : inp.cmd with
      | none =>
        refine ⟨_, step_of_quiet (turn_of_idle h hr hh hc), htail, fun ins rest' => ?_⟩
        rw [scheduleRun_of_idle _ _ hr hc, ← hh]
        rfl
      | some c =>
        refine ⟨_, (step_of_accept (turn_of_offer h hr hh hc)).trans (exec_decodeCommand _ c), htail,
          fun ins rest' => ?_⟩
        rw [scheduleRun_of_offer _ _ hr hc]
        rfl

/-- The run over the first inputs `ins` is the reference's, whatever inputs come after. -/
theorem runSteps_eq_afterSchedule (ins rest : List HostInput) {s : State}
    (h : s.inputs = ins ++ rest) :
    runSteps ins.length s = .next (s.afterSchedule (scheduleRun s.held s.regs ins) rest) := by
  induction ins generalizing s with
  | nil =>
    obtain rfl : s.inputs = rest := h
    rw [State.afterSchedule_nil]
    rfl
  | cons inp ins ih =>
    obtain ⟨t, hstep, hin, hcomm⟩ := step_commutes_with_scheduleRun h
    rw [List.length_cons, runSteps_succ _ hstep, ih hin, hcomm]

/-- A host that offers each command and takes its response: the reference of the interface transfers
the contract's results in order and ends idle with the contract's registers. -/
theorem scheduleRun_transactions (cs : List Command) (st : Spec.Regs) :
    scheduleRun none st (transactions cs) =
      ((Spec.executeAll cs st).1, none, (Spec.executeAll cs st).2) := by
  induction cs generalizing st with
  | nil => rfl
  | cons c cs ih =>
    have hturns : transactions (c :: cs) = .offer c :: .take :: transactions cs := rfl
    rw [hturns, scheduleRun_of_offer (c := c) _ _ rfl rfl, scheduleRun_of_ready _ _ _ rfl rfl, ih]
    rfl

theorem length_transactions (cs : List Command) : (transactions cs).length = 2 * cs.length := by
  simp [transactions, Nat.mul_comm]

/-- Without a reset the reference of the interface is the contract on the accepted commands: its
registers, and one result per accepted command, in order, after the response outstanding before. -/
theorem scheduleRun_eq_executeAll (out : Option Word) (st : Spec.Regs) (ins : List HostInput)
    (hins : ∀ inp ∈ ins, inp.reset = false) :
    (scheduleRun out st ins).2.2 = (Spec.executeAll (acceptedCommands out.isSome ins) st).2 ∧
    (scheduleRun out st ins).1 ++ (scheduleRun out st ins).2.1.toList =
      out.toList ++ (Spec.executeAll (acceptedCommands out.isSome ins) st).1 := by
  induction ins generalizing out st with
  | nil => cases out <;> exact ⟨rfl, rfl⟩
  | cons inp ins ih =>
    obtain ⟨hr, hrest⟩ := List.forall_mem_cons.mp hins
    cases out with
    | some r =>
      cases hy : inp.rspReady with
      | true =>
        simpa [scheduleRun_of_ready _ _ _ hr hy, acceptedCommands, hy] using ih none st hrest
      | false =>
        simpa [scheduleRun_of_stall _ _ _ hr hy, acceptedCommands, hy] using ih (some r) st hrest
    | none =>
      cases hc : inp.cmd with
      | none => simpa [scheduleRun_of_idle _ _ hr hc, acceptedCommands, hc] using ih none st hrest
      | some c =>
        simpa [scheduleRun_of_offer _ _ hr hc, acceptedCommands, hc, Spec.executeAll] using
          ih (some (Spec.executeCommand c st).1) (Spec.executeCommand c st).2 hrest

/-- A run over all inputs without a reset, from any state: the accepted commands run in order, each
with its one response. -/
theorem runSteps_without_reset {s : State} (hins : ∀ inp ∈ s.inputs, inp.reset = false) :
    ∃ t, runSteps s.inputs.length s = .next t ∧ t.inputs = [] ∧
      t.regs = (Spec.executeAll (acceptedCommands s.held.isSome s.inputs) s.regs).2 ∧
      t.responses ++ t.held.toList =
        s.responses ++ s.held.toList ++
          (Spec.executeAll (acceptedCommands s.held.isSome s.inputs) s.regs).1 := by
  obtain ⟨hregs, hwords⟩ := scheduleRun_eq_executeAll s.held s.regs s.inputs hins
  refine ⟨_, runSteps_eq_afterSchedule s.inputs [] (List.append_nil _).symm, rfl, hregs, ?_⟩
  rw [List.append_assoc s.responses, ← hwords, ← List.append_assoc]
  rfl

@[simp] theorem State.hardwareReset_regs (s : State) : s.hardwareReset.regs = Spec.resetRegs := rfl

/-- The reset turn inside a run: what comes after starts from registers 0 with nothing outstanding
and keeps what was transferred before. -/
theorem runSteps_through_reset {s : State} {pre post : List HostInput} {rst : HostInput}
    (h : s.inputs = pre ++ rst :: post) (hr : rst.reset = true) :
    ∃ u, runSteps pre.length s = .next u ∧
      runSteps s.inputs.length s = runSteps post.length u.endTurn.hardwareReset ∧
      u.endTurn.inputs = post := by
  have hpre := runSteps_eq_afterSchedule pre (rst :: post) h
  refine ⟨_, hpre, ?_, rfl⟩
  rw [h, List.length_append, runSteps_add _ _ hpre, List.length_cons,
    runSteps_succ _ (step_of_reset (turn_of_reset rfl hr))]

end Sys2Proof.Machine

namespace Sys2Proof.Proofs

open Sys2Proof.Machine

/-- Settles O42: the run is the reference of the interface, which on transactions is the contract. -/
theorem transactionsComputeReferenceRun : Obligations.TransactionsComputeReferenceRun := by
  intro cs rest s hidle hin
  rw [← length_transactions, runSteps_eq_afterSchedule _ _ hin, hidle, scheduleRun_transactions]
  exact congrArg _ (State.eq_of_fields rfl rfl rfl hidle.symm rfl rfl)

/-- Settles O43: the first clause is the run over all inputs, the second reads it without a reset, and
the third is the second from the state the last reset leaves. -/
theorem everySchedulePreservesCommandOrder : Obligations.EverySchedulePreservesCommandOrder := by
  refine ⟨fun s => runSteps_eq_afterSchedule s.inputs [] (List.append_nil _).symm,
    fun s hins => runSteps_without_reset hins, fun s pre post rst hin hr hpost => ?_⟩
  obtain ⟨u, hu, hrun, rfl⟩ := runSteps_through_reset hin hr
  obtain ⟨t, ht, htin, htregs, htresp⟩ := runSteps_without_reset (s := u.endTurn.hardwareReset) hpost
  exact ⟨u, t, hu, hrun.trans ht, htin, htregs, by simpa using htresp⟩

end Sys2Proof.Proofs
end

section
/-! PROOFS. The decoder and the encoder (spec/30_encoding.md R61, R62, R66): one equation per row of
the dispatch table, the rows as a case split on the two fields, and both round trips. -/

namespace Sys2Proof

open Sys2Proof.Machine

variable {sel : Selector} {mod : Modifier} (A B : Word)

/-! ### One equation per row -/

/-- The modifier of ACC.MACk (R107). -/
def macModifier (k : Fin 4) : Modifier := 0b0010000 + BitVec.ofNat 7 k.val

theorem decode_cbStore (mod : Modifier) : decode 0b000 mod A B = .cbStore mod A B := rfl

theorem decode_wcStore (h : mod.getLsbD 2 = true) : decode 0b001 mod A B = .wcStore mod A B :=
  if_pos h

theorem decode_wcNop (h : mod.getLsbD 2 = false) : decode 0b001 mod A B = .wcNop mod A B :=
  if_neg (Bool.eq_false_iff.mp h)

theorem decode_accReset : decode 0b010 0b0001000 A B = .accReset A B := rfl

/-- The four accumulate rows at once. -/
theorem decode_macModifier (k : Fin 4) : decode 0b010 (macModifier k) A B = macInstr k A B := by
  fin_cases k <;> rfl

theorem mem_listedAccModifiers_iff :
    mod ∈ listedAccModifiers ↔ mod = 0b0001000 ∨ ∃ k, mod = macModifier k := by
  simp [listedAccModifiers, macModifier, Fin.exists_fin_succ]

/-- The selector-2 default arm. -/
theorem decode_accRead (h : mod ∉ listedAccModifiers) :
    decode 0b010 mod A B = .accRead mod A B := by
  simp only [listedAccModifiers, List.mem_cons, List.not_mem_nil, or_false, not_or] at h
  obtain ⟨hreset, h0, h1, h2, h3⟩ := h
  rw [decode, if_neg (by decide), if_neg (by decide), if_pos rfl, if_neg hreset, if_neg h0,
    if_neg h1, if_neg h2, if_neg h3]

theorem decode_noSel (h : 3 ≤ sel.toNat) : decode sel mod A B = .noSel sel mod A B := by
  rw [decode, if_neg (by bv_omega), if_neg (by bv_omega), if_neg (by bv_omega)]

/-- Every pair of fields belongs to a row of the dispatch table (R66, R68): to prove a property of
all of them, prove it row by row. -/
theorem fields_cases {P : Selector → Modifier → Prop}
    (cbStore : ∀ mod, P 0b000 mod)
    (wcStore : ∀ mod, mod.getLsbD 2 = true → P 0b001 mod)
    (wcNop : ∀ mod, mod.getLsbD 2 = false → P 0b001 mod)
    (accReset : P 0b010 0b0001000)
    (accMac : ∀ k, P 0b010 (macModifier k))
    (accRead : ∀ mod, mod ∉ listedAccModifiers → P 0b010 mod)
    (noSel : ∀ sel mod, 3 ≤ sel.toNat → P sel mod)
    (sel : Selector) (mod : Modifier) : P sel mod := by
  by_cases h3 : 3 ≤ sel.toNat
  · exact noSel sel mod h3
  obtain rfl | rfl | rfl : sel = 0b000 ∨ sel = 0b001 ∨ sel = 0b010 := by bv_omega
  · exact cbStore mod
  · cases hbit : mod.getLsbD 2 with
    | true => exact wcStore mod hbit
    | false => exact wcNop mod hbit
  · by_cases hlisted : mod ∈ listedAccModifiers
    · obtain rfl | ⟨k, rfl⟩ := mem_listedAccModifiers_iff.mp hlisted
      · exact accReset
      · exact accMac k
    · exact accRead mod hlisted

/-! ### The round trips -/

theorem wf_accRead_iff : (Instr.accRead mod A B).wf = true ↔ mod ∉ listedAccModifiers := by
  simp [Instr.wf]

theorem wf_macInstr (k : Fin 4) : (macInstr k A B).wf = true := by
  fin_cases k <;> rfl

theorem encode_macInstr (k : Fin 4) :
    encode (macInstr k A B) = Command.ofFields 0b010 (macModifier k) A B := by
  fin_cases k <;> rfl

/-- Decoding the encoding of a well-formed instruction gives it back. -/
theorem decodeCommand_encode (i : Instr) (h : i.wf = true) : decodeCommand (encode i) = i := by
  rw [encode, decodeCommand_ofFields]
  cases i with
  | cbStore mod A B => exact decode_cbStore A B mod
  | wcStore mod A B => exact decode_wcStore A B h
  | wcNop mod A B => exact decode_wcNop A B (by rwa [Instr.wf, Bool.not_eq_true'] at h)
  | accReset A B => exact decode_accReset A B
  | accMac0 A B => exact decode_macModifier A B 0
  | accMac1 A B => exact decode_macModifier A B 1
  | accMac2 A B => exact decode_macModifier A B 2
  | accMac3 A B => exact decode_macModifier A B 3
  | accRead mod A B => exact decode_accRead A B ((wf_accRead_iff A B).mp h)
  | noSel sel mod A B => exact decode_noSel A B (of_decide_eq_true h)

/-- Every pair of fields decodes to a well-formed instruction with that encoding. -/
theorem wf_and_encode_decode (sel : Selector) (mod : Modifier) :
    (decode sel mod A B).wf = true ∧
      encode (decode sel mod A B) = Command.ofFields sel mod A B := by
  induction sel, mod using fields_cases with
  | cbStore mod => exact ⟨rfl, rfl⟩
  | wcStore mod h => rw [decode_wcStore A B h]; exact ⟨h, rfl⟩
  | wcNop mod h => rw [decode_wcNop A B h]; exact ⟨by rw [Instr.wf, h]; rfl, rfl⟩
  | accReset => exact ⟨rfl, rfl⟩
  | accMac k => rw [decode_macModifier]; exact ⟨wf_macInstr A B k, encode_macInstr A B k⟩
  | accRead mod h => rw [decode_accRead A B h]; exact ⟨(wf_accRead_iff A B).mpr h, rfl⟩
  | noSel sel mod h => rw [decode_noSel A B h]; exact ⟨decide_eq_true h, rfl⟩

/-- A command is the one with its own four fields. -/
theorem Command.ofFields_fields (c : Command) : Command.ofFields c.sel c.mod c.A c.B = c := by
  rw [Command.ofFields, Command.sel, Command.mod, packCommandWord_fields]

end Sys2Proof

namespace Sys2Proof.Proofs

open Sys2Proof.Machine

/-- Settles O3: the packing keeps the two fields, and each row's equation reads the instruction back
from them, case by case over the ten constructors. -/
theorem decodeOfEncodeIsInstruction : Obligations.DecodeOfEncodeIsInstruction :=
  decodeCommand_encode

/-- Settles O4: row by row on the command's fields, which are the whole command word. -/
theorem encodeOfDecodeIsCommand : Obligations.EncodeOfDecodeIsCommand := fun c => by
  obtain ⟨hwf, hencode⟩ := wf_and_encode_decode c.A c.B c.sel c.mod
  exact ⟨hwf, hencode.trans c.ofFields_fields⟩

end Sys2Proof.Proofs
end

section
/-! PROOFS. The decoder against the opcode table (spec/opcode_table.json, spec/30_encoding.md R66):
a row tests the two fields apart, and the first row that fits is the decoder's. -/

namespace Sys2Proof

open Sys2Proof.Machine

/-- Two command words are equal exactly when both fields are. -/
theorem commandWord_eq_iff (v w : CommandWord) :
    v = w ↔ v.extractLsb' 0 3 = w.extractLsb' 0 3 ∧ v.extractLsb' 3 7 = w.extractLsb' 3 7 :=
  ⟨fun h => h ▸ ⟨rfl, rfl⟩, fun ⟨hsel, hmod⟩ => by
    rw [← packCommandWord_fields v, hsel, hmod, packCommandWord_fields]⟩

/-- When `{mod, sel}` fits a row: the row's mask and match, field by field. -/
theorem fits_packCommandWord_iff (r : OpcodeRow) (sel : Selector) (mod : Modifier) :
    r.fits (packCommandWord sel mod) = true ↔
      sel &&& r.mask.extractLsb' 0 3 = r.value.extractLsb' 0 3 ∧
        mod &&& r.mask.extractLsb' 3 7 = r.value.extractLsb' 3 7 := by
  rw [OpcodeRow.fits, beq_iff_eq, commandWord_eq_iff, BitVec.extractLsb'_and,
    BitVec.extractLsb'_and, packCommandWord_selector, packCommandWord_modifier]

/-- The rows are tried in order: the first one, or else the later ones. -/
theorem op_find?_cons (w : CommandWord) (r : OpcodeRow) (rs : List OpcodeRow) :
    ((r :: rs).find? (·.fits w)).map (·.op) =
      if r.fits w = true then some r.op else (rs.find? (·.fits w)).map (·.op) := by
  rw [List.find?_cons]
  cases r.fits w <;> rfl

theorem selector_and_allOnes (sel : Selector) : sel &&& 7#3 = sel := BitVec.and_allOnes

theorem modifier_and_allOnes (mod : Modifier) : mod &&& 127#7 = mod := BitVec.and_allOnes

/-- `mod & 0b100` is bit 2 in its place. -/
theorem modifier_and_four (mod : Modifier) : mod &&& 4#7 = if mod[2] then 4#7 else 0#7 :=
  BitVec.and_twoPow mod 2

/-- The opcode table as one chain of tests on the selector and the modifier. -/
theorem tableOp_packCommandWord (sel : Selector) (mod : Modifier) :
    tableOp (packCommandWord sel mod) =
      if sel = 0#3 then some .cbStore
      else if sel = 1#3 ∧ mod[2] = true then some .wcStore
      else if sel = 1#3 ∧ mod[2] = false then some .wcNop
      else if sel = 2#3 ∧ mod = 8#7 then some .accReset
      else if sel = 2#3 ∧ mod = 16#7 then some .accMac0
      else if sel = 2#3 ∧ mod = 17#7 then some .accMac1
      else if sel = 2#3 ∧ mod = 18#7 then some .accMac2
      else if sel = 2#3 ∧ mod = 19#7 then some .accMac3
      else if sel = 2#3 then some .accRead
      else some .noSel := by
  simp [tableOp, opcodeTable, op_find?_cons, fits_packCommandWord_iff, selector_and_allOnes,
    modifier_and_allOnes, modifier_and_four]

/-- The first row of the opcode table that fits names the decoder's operation. -/
theorem tableOp_eq_decode_op (A B : Word) (sel : Selector) (mod : Modifier) :
    tableOp (packCommandWord sel mod) = some (decode sel mod A B).op := by
  rw [tableOp_packCommandWord]
  induction sel, mod using fields_cases with
  | cbStore mod => rfl
  | wcStore mod h =>
    have hbit : mod[2] = true := h
    rw [decode_wcStore A B h]
    simp [hbit, Instr.op]
  | wcNop mod h =>
    have hbit : mod[2] = false := h
    rw [decode_wcNop A B h]
    simp [hbit, Instr.op]
  | accReset => rfl
  | accMac k => fin_cases k <;> rfl
  | accRead mod h =>
    have hmod : mod ≠ 8#7 ∧ mod ≠ 16#7 ∧ mod ≠ 17#7 ∧ mod ≠ 18#7 ∧ mod ≠ 19#7 := by
      simpa [listedAccModifiers] using h
    rw [decode_accRead A B h]
    simp [hmod, Instr.op]
  | noSel sel mod h =>
    have hsel : sel ≠ 0#3 ∧ sel ≠ 1#3 ∧ sel ≠ 2#3 := by bv_omega
    rw [decode_noSel A B h]
    simp [hsel, Instr.op]

end Sys2Proof

namespace Sys2Proof.Proofs

open Sys2Proof.Machine

/-- Settles O2: the table's chain of tests on the command's two fields is the decoder's. -/
theorem decodeAgreesWithOpcodeTable : Obligations.DecodeAgreesWithOpcodeTable := fun c => by
  rw [← packCommandWord_fields c.cmd]
  exact tableOp_eq_decode_op c.A c.B c.sel c.mod

end Sys2Proof.Proofs
end

section
/-! PROOFS. How many of the 1024 command words decode to each operation (spec/30_encoding.md R66),
modifier by modifier: of a modifier's eight words only selectors 1 and 2 look at it. -/

namespace Sys2Proof

open Sys2Proof.Machine

/-- Counting over `0 .. n*k-1` block by block. -/
theorem countP_range_mul (p : Nat → Bool) (n k : Nat) :
    (List.range (n * k)).countP p =
      ∑ m ∈ Finset.range n, (List.range k).countP fun s => p (m * k + s) := by
  induction n with
  | zero => simp
  | succ n ih =>
    rw [Nat.succ_mul, List.range_add, List.countP_append, ih, List.countP_map,
      Finset.sum_range_succ]
    rfl

/-- Appending is scaling and adding. -/
theorem toNat_append_eq_add {m n : Nat} (x : BitVec m) (y : BitVec n) :
    (x ++ y).toNat = x.toNat * 2 ^ n + y.toNat := by
  rw [BitVec.toNat_append, ← Nat.shiftLeft_add_eq_or_of_lt y.isLt, Nat.shiftLeft_eq]

/-- `{mod, sel}` as a number. -/
theorem packCommandWord_toNat (sel : Selector) (mod : Modifier) :
    (packCommandWord sel mod).toNat = mod.toNat * 8 + sel.toNat :=
  toNat_append_eq_add mod sel

/-- The command word numbered `mod * 8 + sel`. -/
theorem commandOfTableWord_fields (m : Nat) {s : Nat} (hs : s < 8) :
    commandOfTableWord (m * 8 + s) =
      Command.ofFields (BitVec.ofNat 3 s) (BitVec.ofNat 7 m) 0 0 := by
  have hcmd : BitVec.ofNat 10 (m * 8 + s) =
      packCommandWord (BitVec.ofNat 3 s) (BitVec.ofNat 7 m) := by
    apply BitVec.eq_of_toNat_eq
    simp only [packCommandWord_toNat, BitVec.toNat_ofNat]
    omega
  rw [commandOfTableWord, hcmd, Command.ofFields]

/-- The eight words of one modifier: selectors 0 and 3 to 7 do not look at it. -/
def opsOfModifier (mod : Modifier) : List Op :=
  [.cbStore, (decode 0b001 mod 0 0).op, (decode 0b010 mod 0 0).op, .noSel, .noSel, .noSel, .noSel,
    .noSel]

theorem map_op_decode_range (mod : Modifier) :
    ((List.range 8).map fun s => (decode (BitVec.ofNat 3 s) mod 0 0).op) = opsOfModifier mod := rfl

/-- The command words of an operation, counted modifier by modifier. -/
theorem countDecoded_eq_sum (o : Op) :
    countDecoded o = ∑ m ∈ Finset.range 128, (opsOfModifier (BitVec.ofNat 7 m)).count o := by
  rw [countDecoded, ← List.countP_eq_length_filter, show 1024 = 128 * 8 from rfl, countP_range_mul]
  refine Finset.sum_congr rfl fun m _ => ?_
  rw [← map_op_decode_range, List.count_eq_countP, List.countP_map]
  refine List.countP_congr fun s hs => ?_
  rw [commandOfTableWord_fields m (List.mem_range.mp hs), decodeCommand_ofFields]
  rfl

/-- A selector-2 modifier outside 8 and 16..19 is not listed. -/
theorem not_mem_listedAccModifiers {mod : Modifier} (h8 : mod ≠ 0b0001000)
    (hmac : mod.toNat < 16 ∨ 19 < mod.toNat) : mod ∉ listedAccModifiers := by
  simp only [listedAccModifiers, List.mem_cons, List.not_mem_nil, or_false]
  bv_omega

end Sys2Proof

namespace Sys2Proof.Proofs

open Sys2Proof.Machine

/-- Settles O1: each clause is a row's equation of the decoder, and the counts are evaluated over
the 128 modifiers. -/
theorem decodeFollowsDispatchTable : Obligations.DecodeFollowsDispatchTable := by
  refine ⟨fun sel mod A B => ⟨?_, ?_, ?_, ?_, ?_, ?_, ?_, ?_, ?_, decode_noSel A B⟩, ?_⟩
  · rintro rfl; exact decode_cbStore A B mod
  · rintro rfl h; exact decode_wcStore A B h
  · rintro rfl h; exact decode_wcNop A B h
  · rintro rfl rfl; exact decode_accReset A B
  · rintro rfl rfl; exact decode_macModifier A B 0
  · rintro rfl rfl; exact decode_macModifier A B 1
  · rintro rfl rfl; exact decode_macModifier A B 2
  · rintro rfl rfl; exact decode_macModifier A B 3
  · rintro rfl h8 hmac; exact decode_accRead A B (not_mem_listedAccModifiers h8 hmac)
  · simp only [countDecoded_eq_sum]
    decide +kernel

/-- Settles O5: seven closed words. -/
theorem sampleCommandWordsDecode : Obligations.SampleCommandWordsDecode := by
  unfold Obligations.SampleCommandWordsDecode
  decide

end Sys2Proof.Proofs
end

section
/-! PROOFS. The informative host embedding (spec/30_encoding.md R67): a host word as a number, of
which each field is a quotient and a remainder. -/

namespace Sys2Proof

open Sys2Proof.Machine

variable (h : HostInsn) (w : BitVec 32)

/-- A bit field as a number. -/
theorem extractLsb'_toNat_eq (start len : Nat) :
    (w.extractLsb' start len).toNat = w.toNat / 2 ^ start % 2 ^ len := by
  rw [BitVec.extractLsb'_toNat, Nat.shiftRight_eq_div_pow]

/-- A host word as a number. -/
theorem HostInsn.encode_toNat : h.encode.toNat =
    ((((h.funct7.toNat * 2 ^ 5 + h.rs2.toNat) * 2 ^ 5 + h.rs1.toNat) * 2 ^ 3 + h.funct3.toNat)
      * 2 ^ 5 + h.rd.toNat) * 2 ^ 7 + 11 := by
  refine (toNat_append_eq_add _ Config.HOST_OPCODE).trans ?_
  simp only [toNat_append_eq_add]
  rfl

/-- The five fields of a host word, whatever its opcode. -/
def HostInsn.fields : HostInsn :=
  { funct7 := w.extractLsb' 25 7, rs2 := w.extractLsb' 20 5, rs1 := w.extractLsb' 15 5,
    funct3 := w.extractLsb' 12 3, rd := w.extractLsb' 7 5 }

/-- A word of the engine's opcode decodes to its fields. -/
theorem HostInsn.decode_eq_some (hop : w.extractLsb' 0 7 = Config.HOST_OPCODE) :
    HostInsn.decode w = some (HostInsn.fields w) := if_pos hop

/-- A word of another opcode is no command. -/
theorem HostInsn.decode_eq_none (hop : w.extractLsb' 0 7 ≠ Config.HOST_OPCODE) :
    HostInsn.decode w = none := if_neg hop

theorem HostInsn.opcode_encode : h.encode.extractLsb' 0 7 = Config.HOST_OPCODE := by
  apply BitVec.eq_of_toNat_eq
  rw [extractLsb'_toNat_eq, h.encode_toNat, show Config.HOST_OPCODE.toNat = 11 from rfl]
  omega

/-- Each field of an encoded host instruction is read back. -/
theorem HostInsn.fields_encode : HostInsn.fields h.encode = h := by
  have hw := h.encode_toNat
  cases h
  simp only [HostInsn.fields, HostInsn.mk.injEq, ← BitVec.toNat_inj, extractLsb'_toNat_eq, hw]
  refine ⟨?_, ?_, ?_, ?_, ?_⟩ <;> bv_omega

/-- The fields of a host word and the engine's opcode are the whole word. -/
theorem HostInsn.encode_fields (hop : w.extractLsb' 0 7 = Config.HOST_OPCODE) :
    (HostInsn.fields w).encode = w := by
  have hopNat : w.toNat / 2 ^ 0 % 2 ^ 7 = 11 := by
    rw [← extractLsb'_toNat_eq, hop]
    rfl
  apply BitVec.eq_of_toNat_eq
  rw [HostInsn.encode_toNat]
  simp only [HostInsn.fields, extractLsb'_toNat_eq]
  omega

/-- The opcode is the low seven bits. -/
theorem opcode_eq_iff_and_mask :
    w.extractLsb' 0 7 = Config.HOST_OPCODE ↔ w &&& 0x7F = 0b0001011 := by
  have hmask : (w &&& 0x7F).toNat = w.toNat / 2 ^ 0 % 2 ^ 7 :=
    toNat_ushiftRight_and_mask w 0 (k := 7) (by decide)
  rw [← BitVec.toNat_inj, ← BitVec.toNat_inj, extractLsb'_toNat_eq, hmask]
  rfl

end Sys2Proof

namespace Sys2Proof.Proofs

open Sys2Proof.Machine

/-- Settles O6: the fields are read back from the encoding, a word of the engine's opcode is the
encoding of its fields, and the command packs funct3 and funct7. -/
theorem hostWordsRoundTrip : Obligations.HostWordsRoundTrip := by
  refine ⟨fun h => ?_, fun w h hdec => ?_, fun w => ?_, fun h a b => decodeCommand_ofFields _ _ _ _⟩
  · rw [HostInsn.decode_eq_some _ h.opcode_encode, h.fields_encode]
  · by_cases hop : w.extractLsb' 0 7 = Config.HOST_OPCODE
    · rw [HostInsn.decode_eq_some w hop] at hdec
      cases hdec
      exact HostInsn.encode_fields w hop
    · simp [HostInsn.decode_eq_none w hop] at hdec
  · rw [Ne, ← opcode_eq_iff_and_mask]
    by_cases hop : w.extractLsb' 0 7 = Config.HOST_OPCODE
    · simp [HostInsn.decode_eq_some w hop, hop]
    · simp [HostInsn.decode_eq_none w hop, hop]

end Sys2Proof.Proofs
end

section
/-! PROOFS. The assembler forms and the pseudo-instructions (spec/30_encoding.md R71, R72): each
stands for a command of given fields, so a row's equation of the decoder reads it. -/

namespace Sys2Proof

open Sys2Proof.Machine

variable {mod : Option Modifier} {A B : Option Word}

/-! ### What each assembler form decodes to -/

theorem decodeCommand_asm_cbStore : decodeCommand (Asm.cbStore mod A B).command =
    .cbStore (mod.getD 0) (A.getD 0) (B.getD 0) :=
  decodeCommand_ofFields _ _ _ _

theorem decodeCommand_asm_wcStore (h : (Asm.wcStore mod A B).wf = true) :
    decodeCommand (Asm.wcStore mod A B).command =
      .wcStore (mod.getD 0b0000100) (A.getD 0) (B.getD 0) := by
  rw [Asm.wf, Bool.and_eq_true, Bool.and_eq_true] at h
  obtain ⟨⟨hbit, -⟩, -⟩ := h
  exact (decodeCommand_ofFields _ _ _ _).trans (decode_wcStore _ _ hbit)

theorem decodeCommand_asm_wcNop (h : (Asm.wcNop mod A B).wf = true) :
    decodeCommand (Asm.wcNop mod A B).command = .wcNop (mod.getD 0) (A.getD 0) (B.getD 0) := by
  rw [Asm.wf, Bool.not_eq_true'] at h
  exact (decodeCommand_ofFields _ _ _ _).trans (decode_wcNop _ _ h)

theorem decodeCommand_asm_accReset : decodeCommand (Asm.accReset A B).command =
    .accReset (A.getD 0) (B.getD 0) :=
  decodeCommand_ofFields _ _ _ _

theorem decodeCommand_asm_accMac (k : Fin 4) : decodeCommand (Asm.accMac k A B).command =
    macInstr k (A.getD 0) (B.getD 0) :=
  (decodeCommand_ofFields _ _ _ _).trans (decode_macModifier _ _ k)

theorem decodeCommand_asm_accRead (h : (Asm.accRead mod A B).wf = true) :
    decodeCommand (Asm.accRead mod A B).command = .accRead (mod.getD 0) (A.getD 0) (B.getD 0) :=
  (decodeCommand_ofFields _ _ _ _).trans (decode_accRead _ _ ((wf_accRead_iff 0 0).mp h))

theorem decodeCommand_asm_noSel {sm : Option (Selector × Modifier)}
    (h : (Asm.noSel sm A B).wf = true) : decodeCommand (Asm.noSel sm A B).command =
      .noSel ((sm.map Prod.fst).getD 3) ((sm.map Prod.snd).getD 0) (A.getD 0) (B.getD 0) :=
  (decodeCommand_ofFields _ _ _ _).trans (decode_noSel _ _ (of_decide_eq_true h))

/-- The operation of ACC.MACk is the one its line names. -/
theorem op_macInstr (k : Fin 4) (A' B' : Word) :
    (Asm.accMac k A B).op = some (macInstr k A' B').op := by
  fin_cases k <;> rfl

/-- A well-formed line that names an operation decodes to it. -/
theorem op_decodeCommand_asm (a : Asm) (o : Op) (hwf : a.wf = true) (hop : a.op = some o) :
    (decodeCommand a.command).op = o := by
  cases a with
  | cbStore mod A B => cases hop; rw [decodeCommand_asm_cbStore]; rfl
  | wcStore mod A B => cases hop; rw [decodeCommand_asm_wcStore hwf]; rfl
  | wcNop mod A B => cases hop; rw [decodeCommand_asm_wcNop hwf]; rfl
  | accReset A B => cases hop; rw [decodeCommand_asm_accReset]; rfl
  | accMac k A B =>
    rw [decodeCommand_asm_accMac]
    exact Option.some.inj ((op_macInstr k _ _).symm.trans hop)
  | accRead mod A B => cases hop; rw [decodeCommand_asm_accRead hwf]; rfl
  | noSel sm A B => cases hop; rw [decodeCommand_asm_noSel hwf]; rfl
  | cfu sel mod A B => cases hop

end Sys2Proof

namespace Sys2Proof.Machine

variable (s : State)

/-! ### What each pseudo-instruction does -/

theorem exec_expand_storeCodebook (v : Word) :
    exec (decodeCommand (Pseudo.storeCodebook v).expand) s = .next ((s.setCB v).result v) := by
  rw [Pseudo.expand, decodeCommand_ofFields, decode_cbStore, exec_cbStore]

theorem exec_expand_storeWeights (lo hi : Word) :
    exec (decodeCommand (Pseudo.storeWeights lo hi).expand) s =
      .next ((s.setWCW (Spec.pair lo hi)).result lo) := by
  rw [Pseudo.expand, decodeCommand_ofFields, decode_wcStore _ _ (by decide), exec_wcStore,
    weightCodeWord_eq_pair]

theorem exec_expand_reset :
    exec (decodeCommand Pseudo.reset.expand) s = .next ((s.setACC 0).result 0) := by
  rw [Pseudo.expand, decodeCommand_ofFields, decode_accReset, exec_accReset]

theorem exec_expand_accumulate (k : Fin 4) (a b : Word) :
    exec (decodeCommand (Pseudo.accumulate k a b).expand) s = .next (s.accumulate k a b) := by
  have hexpand : (Pseudo.accumulate k a b).expand = Command.ofFields 0b010 (macModifier k) a b :=
    rfl
  rw [hexpand, decodeCommand_ofFields, decode_macModifier, exec_macInstr]

theorem exec_expand_read :
    exec (decodeCommand Pseudo.read.expand) s = .next (s.result s.ACC) := by
  rw [Pseudo.expand, decodeCommand_ofFields, decode_accRead _ _ (by decide), exec_accRead]

/-- The accumulate step with the set the state holds. -/
theorem accumulate_eq_accumulated (k : Fin 4) (a b : Word) :
    s.accumulate k a b = s.accumulated a b (Spec.set s.WCW k.val) :=
  accumulate_eq_result a b k s

end Sys2Proof.Machine

namespace Sys2Proof.Proofs

open Sys2Proof.Machine

/-- Settles O7: form by form; the raw form packs its own fields. -/
theorem assemblerLineDecodesToNamedOperation : Obligations.AssemblerLineDecodesToNamedOperation :=
  ⟨op_decodeCommand_asm, fun _ _ _ => decodeCommand_asm_cbStore,
    fun _ _ _ => decodeCommand_asm_wcStore, fun _ _ _ => decodeCommand_asm_wcNop,
    fun _ _ => decodeCommand_asm_accReset, fun k _ _ => decodeCommand_asm_accMac k,
    fun _ _ _ => decodeCommand_asm_accRead, fun _ _ => decodeCommand_asm_noSel rfl,
    fun _ _ _ _ => decodeCommand_asm_noSel,
    fun sel mod A B =>
      ⟨packCommandWord_toNat sel mod, rfl, rfl, decodeCommand_ofFields sel mod A B⟩⟩

/-- Settles O8: each expansion is one row of the decoder, whose meaning is one equation. -/
theorem pseudoInstructionsReturnTheirWords : Obligations.PseudoInstructionsReturnTheirWords :=
  fun s => ⟨exec_expand_storeCodebook s, exec_expand_storeWeights s, exec_expand_reset s,
    fun k a b => (exec_expand_accumulate s k a b).trans
      (congrArg Host.Outcome.next (accumulate_eq_accumulated s k a b)),
    exec_expand_read s⟩

end Sys2Proof.Proofs
end

section
/-! PROOFS. One turn of the interface on the command and response channels (spec/30_encoding.md R63,
spec/70_reset_and_hazards.md R182), and the fields an operation ignores (R62, R64). -/

namespace Sys2Proof.Machine

variable {s t : State}

/-- The end of a turn removes that turn's input. -/
theorem endTurn_eq_of_inputs {inp : HostInput} {rest : List HostInput}
    (h : s.inputs = inp :: rest) : s.endTurn = { s with inputs := rest } := by
  rw [State.endTurn, h, List.tail_cons]

/-- A step leaves the transferred responses, or it transfers the held one. -/
theorem responses_of_step (h : step s = .next t) :
    t.responses = s.responses ∨
      ∃ r, s.held = some r ∧ t.held = none ∧ t.responses = s.responses ++ [r] := by
  obtain ⟨-, rfl⟩ | ⟨-, rfl⟩ | ⟨r, -, hheld, rfl⟩ | ⟨c, -, -, hexec⟩ := step_cases h
  · exact .inl rfl
  · exact .inl rfl
  · exact .inr ⟨r, hheld, rfl, rfl⟩
  · obtain ⟨u, hu, -, hresp⟩ := exec_next (decodeCommand c) s.endTurn
    cases hu.symm.trans hexec
    exact .inl hresp

/-- An idle engine that is offered a command without reset runs it. -/
theorem step_of_offer {inp : HostInput} {rest : List HostInput} {c : Command}
    (h : s.inputs = inp :: rest) (hr : inp.reset = false) (hh : s.held = none)
    (hc : inp.cmd = some c) : step s = exec (decodeCommand c) { s with inputs := rest } := by
  rw [step_of_accept (turn_of_offer h hr hh hc), endTurn_eq_of_inputs h]

end Sys2Proof.Machine

namespace Sys2Proof.Proofs

open Sys2Proof.Machine

/-- Settles O45: by the kinds of turn; a command leaves the record of responses. -/
theorem transferredResponsesOnlyGrow : Obligations.TransferredResponsesOnlyGrow :=
  fun _ _ => responses_of_step

/-- Settles O26: no meaning looks at a field that its operation ignores. -/
theorem ignoredFieldsDoNotMatter : Obligations.IgnoredFieldsDoNotMatter := by
  intro m m' sel sel' A A' B B' s
  refine ⟨?_, ?_, ?_, ?_, ?_, ?_⟩
  · rw [exec_cbStore, exec_cbStore]
  · rw [exec_wcStore, exec_wcStore]
  · rw [exec_wcNop, exec_wcNop]
  · rw [exec_accReset, exec_accReset]
  · rw [exec_accRead, exec_accRead]
  · rw [exec_noSel, exec_noSel]

/-- Settles O34: the offered command is decoded, and the encoding of `i` decodes to `i`. -/
theorem stepRunsDecodedCommand : Obligations.StepRunsDecodedCommand := by
  intro s inp rest c hin hr hidle hcmd
  have hstep := step_of_offer hin hr hidle hcmd
  refine ⟨hstep, fun i hwf hc => ?_⟩
  rw [hstep, hc, decodeCommand_encode i hwf]

/-- Settles O35: the placed word is an offer to an idle engine. -/
theorem fetchWordRunsTableInstruction : Obligations.FetchWordRunsTableInstruction := by
  intro s nbits w i hdec
  rw [← Option.some.inj hdec]
  exact step_of_offer rfl rfl rfl rfl

/-- Settles O38: a ready host's turn transfers the held response. -/
theorem readyHostTakesHeldResponse : Obligations.ReadyHostTakesHeldResponse := by
  intro s inp rest r hin hr hheld hready
  rw [step_of_respond (turn_of_ready hin hr hheld hready), endTurn_eq_of_inputs hin]
  rfl

end Sys2Proof.Proofs
end

section
/-! PROOFS. The register loads (spec/40_store.md): what each load leaves, that it stays until the next
load of the same register, and what a later ACC.MACk makes of it. -/

namespace Sys2Proof.Machine

/-! ### What stays over a sequence of commands -/

/-- Every sequence runs to its end, and what each of its instructions leaves stays to the end. -/
theorem execAll_keeps {α : Type} (part : State → α) (is : List Instr) (s : State)
    (hkeep : ∀ i ∈ is, ∀ u v, exec i u = .next v → part v = part u) :
    ∃ t, execAll is s = .next t ∧ part t = part s := by
  induction is generalizing s with
  | nil => exact ⟨s, rfl, rfl⟩
  | cons i is ih =>
    obtain ⟨hi, hrest⟩ := List.forall_mem_cons.mp hkeep
    obtain ⟨u, hu, -⟩ := exec_next i s
    obtain ⟨t, ht, hpart⟩ := ih u hrest
    exact ⟨t, (execAll_cons hu).trans ht, hpart.trans (hi s u hu)⟩

/-- Only CB.STORE changes `CB` (R146). -/
theorem exec_keeps_CB {i : Instr} {s t : State} (hop : i.op ≠ .cbStore) (h : exec i s = .next t) :
    t.CB = s.CB := by
  obtain ⟨hwrites, -⟩ := writer_of_exec_changes h
  by_contra hne
  exact hop (eq_of_beq (hwrites hne))

/-- Only WC.STORE changes `WCW` (R146). -/
theorem exec_keeps_WCW {i : Instr} {s t : State} (hop : i.op ≠ .wcStore) (h : exec i s = .next t) :
    t.WCW = s.WCW := by
  obtain ⟨-, hwrites, -⟩ := writer_of_exec_changes h
  by_contra hne
  exact hop (eq_of_beq (hwrites hne))

variable (mod : Modifier) (A B lo hi : Word) (s : State) {between : List Instr}

/-- WC.STORE in the source's terms. -/
theorem exec_wcStore_pair :
    exec (.wcStore mod lo hi) s = .next ((s.setWCW (Spec.pair lo hi)).result lo) := by
  rw [exec_wcStore, weightCodeWord_eq_pair]

/-- The stored codebook stays until the next CB.STORE (R81). -/
theorem execAll_cbStore_cons (hops : ∀ i ∈ between, i.op ≠ .cbStore) :
    ∃ t, execAll (.cbStore mod A B :: between) s = .next t ∧ t.CB = B := by
  rw [execAll_cons (exec_cbStore mod A B s)]
  exact execAll_keeps State.CB between _ fun i hmem _ _ => exec_keeps_CB (hops i hmem)

/-- The stored weight-code word stays until the next WC.STORE (R84). -/
theorem execAll_wcStore_cons (hops : ∀ i ∈ between, i.op ≠ .wcStore) :
    ∃ t, execAll (.wcStore mod lo hi :: between) s = .next t ∧ t.WCW = Spec.pair lo hi := by
  rw [execAll_cons (exec_wcStore_pair mod lo hi s)]
  exact execAll_keeps State.WCW between _ fun i hmem _ _ => exec_keeps_WCW (hops i hmem)

/-- ACC.MACk in the reference's terms: the set is the one the state holds. -/
theorem exec_macInstr_accumulated (k : Fin 4) :
    exec (macInstr k A B) s = .next (s.accumulated A B (Spec.set s.WCW k.val)) := by
  rw [exec_macInstr, accumulate_eq_accumulated]

/-! ### The weight-code word `{hi, lo}` -/

/-- `{hi, lo}` as a number. -/
theorem pair_toNat : (Spec.pair lo hi).toNat = hi.toNat * 2 ^ 32 + lo.toNat := by
  rw [← weightCodeWord_eq_pair, weightCodeWord_toNat]

/-- A field within the low half of `{hi, lo}` is the field of `lo`. -/
theorem extractLsb'_pair_low {start len : Nat} (h : start + len ≤ 32) :
    (Spec.pair lo hi).extractLsb' start len = lo.extractLsb' start len := by
  rw [← weightCodeWord_eq_pair]
  exact BitVec.extractLsb'_append_eq_of_add_le h

/-- A field within the high half of `{hi, lo}` is the field of `hi`. -/
theorem extractLsb'_pair_high {start len : Nat} (h : 32 ≤ start) :
    (Spec.pair lo hi).extractLsb' start len = hi.extractLsb' (start - 32) len := by
  rw [← weightCodeWord_eq_pair]
  exact BitVec.extractLsb'_append_eq_of_le h

/-- R84's set of `{hi, lo}` is the set of the stored weight-code word. -/
theorem set_pair (k : Nat) : Spec.set (Spec.pair lo hi) k =
    (((hi ++ lo : BitVec 64) >>> (16 * k)) &&& 0xFFFF).setWidth 16 := by
  rw [← weightCodeWord_eq_pair, Spec.set, Nat.mul_comm k, weightCodeWord]

/-! ### A codebook seen through one MAC -/

theorem sbyte_zero (n : Nat) : Spec.sbyte 0#32 n = 0 := by
  simp [Spec.sbyte]

/-- With operands 1 and 0 only position 0 counts: the MAC value is the centroid that code 0 selects. -/
theorem mac_one_zero (CB : Word) (set : WeightSet) :
    Spec.mac 1 0 CB set = Spec.sbyte CB (Spec.code set 0) := by
  obtain ⟨h0, h1, h2, h3⟩ : Spec.sbyte 1#32 0 = 1 ∧ Spec.sbyte 1#32 1 = 0 ∧
    Spec.sbyte 1#32 2 = 0 ∧ Spec.sbyte 1#32 3 = 0 := by decide
  simp [Spec.mac, List.range_succ, sbyte_zero, h0, h1, h2, h3]

/-- Every code of the set `0x5555 * c` is `c`. -/
theorem code_uniformSet : ∀ (c : Fin 4) (n : Fin 8),
    Spec.code (BitVec.ofNat 16 (0x5555 * c.val)) n.val = c.val := by
  decide

end Sys2Proof.Machine

namespace Sys2Proof.Proofs

open Sys2Proof.Machine

/-- Settles O14: CB.STORE's equation, the accumulate step after it, and the codebook that stays over
the commands in between. -/
theorem cbStoreLoadsWholeCodebook : Obligations.CbStoreLoadsWholeCodebook := by
  intro mod A B s
  refine ⟨decode_cbStore A B mod, exec_cbStore mod A B s, fun k A' B' => ?_, fun between hops => ?_⟩
  · rw [execAll_cons (exec_cbStore mod A B s), execAll_cons (exec_macInstr_accumulated A' B' _ k)]
    exact ⟨_, rfl, rfl, rfl, rfl⟩
  · obtain ⟨t, ht, rfl⟩ := execAll_cbStore_cons mod A B s hops
    exact ⟨t, ht, rfl, fun k A' B' => exec_macInstr_accumulated A' B' t k⟩

/-- Settles O15: WC.STORE's equation, and the four sets, each a field within one half of `{B, A}`. -/
theorem wcStoreLoadsWholeWeightCodeWord : Obligations.WcStoreLoadsWholeWeightCodeWord :=
  fun mod A B s => ⟨decode_wcStore A B, exec_wcStore_pair mod A B s, pair_toNat A B,
    extractLsb'_pair_low A B (start := 0) (by decide),
    extractLsb'_pair_low A B (start := 16) (by decide),
    extractLsb'_pair_high A B (start := 32) (by decide),
    extractLsb'_pair_high A B (start := 48) (by decide)⟩

/-- Settles O29: the run's last accumulate step starts from `ACC` = 0 and finds `X` and a set 0 whose
code 0 is `c`. -/
theorem codebookIsObservableThroughMac : Obligations.CodebookIsObservableThroughMac := by
  intro c X lo hi A A' B' m m' s hlo
  have hset : Spec.set (Spec.pair lo hi) 0 = BitVec.ofNat 16 (0x5555 * c.val) := by
    rw [← hlo, ← extractLsb'_pair_low lo hi (by decide)]
    exact (weightSet_eq_specSet _ 0).symm
  have hmac : Spec.mac 1 0 X (Spec.set (Spec.pair lo hi) 0) = Spec.sbyte X c.val := by
    rw [mac_one_zero, hset]
    exact congrArg _ (code_uniformSet c 0)
  rw [execAll_cons (exec_cbStore m A X s), execAll_cons (exec_wcStore_pair m' lo hi _),
    execAll_cons (exec_accReset A' B' _),
    execAll_cons (i := .accMac0 1 0) (exec_macInstr_accumulated 1 0 _ 0)]
  exact ⟨_, rfl, congrArg (fun m => some (BitVec.ofInt 32 m)) ((zero_add _).trans hmac)⟩

/-- Settles O30: the weight-code word stays over the commands in between, and ACC.MACk reads its set
`k` from it. -/
theorem weightStorePackingLaw : Obligations.WeightStorePackingLaw := by
  intro mod lo hi between s hops
  obtain ⟨t, ht, hWCW⟩ := execAll_wcStore_cons mod lo hi s hops
  refine ⟨t, ht, fun k A B => ?_⟩
  rw [exec_macInstr_accumulated, hWCW, set_pair]

/-- Settles O16: the decoder's row and WC.NOP's equation. -/
theorem wcNopReturnsZero : Obligations.WcNopReturnsZero :=
  fun mod A B s => ⟨decode_wcNop A B, exec_wcNop mod A B s⟩

end Sys2Proof.Proofs
end

section
/-! PROOFS. The numbers of the MAC datapath (spec/41_mac.md R103 to R106, spec/10_state.md R26): the
range of a product and of the eight-tap sum, and the accumulator that wraps. -/

namespace Sys2Proof.Machine

/-! ### Products and sums of products -/

/-- The product of two signed bytes is smallest at -128 times 127 and largest at -128 times -128
(R103): the distances of both factors from both ends of their range are not negative, and neither
are the products of these, of which each bound is a linear combination. -/
theorem product_bounds (x y : Byte) : -16256 ≤ product x y ∧ product x y ≤ 16384 := by
  obtain ⟨hx0, hx1⟩ := byte_toInt_bounds x
  obtain ⟨hy0, hy1⟩ := byte_toInt_bounds y
  have hlowlow := mul_nonneg (sub_nonneg.mpr hx0) (sub_nonneg.mpr hy0)
  have hhighhigh := mul_nonneg (sub_nonneg.mpr hx1) (sub_nonneg.mpr hy1)
  have hlowhigh := mul_nonneg (sub_nonneg.mpr hx0) (sub_nonneg.mpr hy1)
  have hhighlow := mul_nonneg (sub_nonneg.mpr hx1) (sub_nonneg.mpr hy0)
  rw [product]
  constructor
  · linarith only [hlowlow, hhighhigh]
  · linarith only [hlowhigh, hhighlow, hx0, hy0]

/-- Four products at once. -/
theorem sum_product_bounds (x y : Fin 4 → Byte) :
    -65024 ≤ ∑ i, product (x i) (y i) ∧ ∑ i, product (x i) (y i) ≤ 65536 := by
  have hlow := Finset.card_nsmul_le_sum Finset.univ (fun i => product (x i) (y i)) (-16256)
    fun i _ => (product_bounds (x i) (y i)).1
  have hhigh := Finset.sum_le_card_nsmul Finset.univ (fun i => product (x i) (y i)) 16384
    fun i _ => (product_bounds (x i) (y i)).2
  exact ⟨by simpa using hlow, by simpa using hhigh⟩

variable (A B CB : Word) (set : WeightSet)

/-- The MAC value is two sums of four products (R104, R105). -/
theorem mac_eq_sum_products : mac A B CB set =
    (∑ i : Fin 4, product (virtualWeight CB set (Fin.castLE (by omega) i)) (byteLane A i))
      + (∑ i : Fin 4, product (virtualWeight CB set (Fin.natAdd 4 i)) (byteLane B i)) := by
  rw [Fin.sum_univ_four, Fin.sum_univ_four]
  rfl

/-- The range of the MAC value (R104). -/
theorem mac_bounds : -130048 ≤ mac A B CB set ∧ mac A B CB set ≤ 131072 := by
  obtain ⟨hA0, hA1⟩ := sum_product_bounds (fun i => virtualWeight CB set (Fin.castLE (by omega) i))
    (byteLane A)
  obtain ⟨hB0, hB1⟩ := sum_product_bounds (fun i => virtualWeight CB set (Fin.natAdd 4 i))
    (byteLane B)
  rw [mac_eq_sum_products]
  exact ⟨add_le_add hA0 hB0, add_le_add hA1 hB1⟩

/-- The MAC value fits in 19 signed bits (R104). -/
theorem toInt_ofInt_mac : (BitVec.ofInt 19 (mac A B CB set)).toInt = mac A B CB set := by
  obtain ⟨h0, h1⟩ := mac_bounds A B CB set
  exact BitVec.toInt_ofInt_eq_self (by decide) (by omega) (by omega)

/-! ### Words of four equal bytes -/

theorem byteLane_0x80808080 : ∀ n, byteLane 0x80808080 n = 0x80 := by decide

theorem byteLane_0x7F7F7F7F : ∀ n, byteLane 0x7F7F7F7F n = 0x7F := by decide

variable {A B CB}

/-- With equal centroids and equal operand bytes the codes do not matter: eight times one product. -/
theorem mac_of_equal_bytes {c x : Byte} (hCB : ∀ n, byteLane CB n = c) (hA : ∀ n, byteLane A n = x) :
    mac A A CB set = 8 * product c x := by
  simp only [mac, tap, virtualWeight, hCB, hA]
  ring

/-- The largest MAC value, with every set. -/
theorem mac_largest : mac 0x80808080 0x80808080 0x80808080 set = 131072 :=
  mac_of_equal_bytes set byteLane_0x80808080 byteLane_0x80808080

/-- The smallest MAC value, with every set. -/
theorem mac_smallest : mac 0x7F7F7F7F 0x7F7F7F7F 0x80808080 set = -130048 :=
  mac_of_equal_bytes set byteLane_0x80808080 byteLane_0x7F7F7F7F

/-! ### The wrapping accumulator -/

/-- The wrapping sum as an unsigned number (R26). -/
theorem wrapAdd_toNat (acc : Word) (m : Int) :
    ((wrapAdd acc m).toNat : Int) = ((acc.toNat : Int) + m) % 2 ^ 32 := by
  rw [wrapAdd, BitVec.toNat_add, BitVec.toNat_ofInt]
  omega

/-- The wrapping sum as a signed number: the exact sum, moved into range by a multiple `q` of 2^32
(R106). -/
theorem wrapAdd_toInt (acc : Word) (m q : Int)
    (hlow : -2147483648 ≤ acc.toInt + m + 4294967296 * q)
    (hhigh : acc.toInt + m + 4294967296 * q ≤ 2147483647) :
    (wrapAdd acc m).toInt = acc.toInt + m + 4294967296 * q := by
  rw [wrapAdd_eq_ofInt, BitVec.toInt_ofInt, Int.bmod_eq_iff (by decide)]
  exact ⟨by omega, by omega, q, by omega⟩

end Sys2Proof.Machine

namespace Sys2Proof.Proofs

open Sys2Proof.Machine

/-- Settles O10: tap by tap. -/
theorem macIsEightTapDotProduct : Obligations.MacIsEightTapDotProduct :=
  mac_eq_specMac

/-- Settles O11: the product's range lies within sixteen signed bits. -/
theorem productsFitSixteenBits : Obligations.ProductsFitSixteenBits := by
  intro x y
  obtain ⟨h0, h1⟩ := product_bounds x y
  exact ⟨h0, h1, BitVec.toInt_ofInt_eq_self (by decide) (by omega) (by omega)⟩

/-- Settles O12: the sum's range is eight times a product's, and equal bytes reach both ends. -/
theorem macValueStaysInRange : Obligations.MacValueStaysInRange := by
  refine ⟨fun A B CB s => ?_, fun s => ⟨mac_largest s, mac_smallest s⟩⟩
  obtain ⟨h0, h1⟩ := mac_bounds A B CB s
  exact ⟨mac_eq_sum_products A B CB s, h0, h1, toInt_ofInt_mac A B CB s⟩

/-- Settles O13: sign extension keeps the 19-bit value, and the signed clauses move the exact sum by
0, -1 and 1 times 2^32. -/
theorem accumulateWrapsModuloTwoToThe32 : Obligations.AccumulateWrapsModuloTwoToThe32 := by
  refine ⟨wrapAdd_toNat, fun A B CB s => ?_, fun acc m hhigh hlow => ?_, fun acc m hlow hhigh => ?_,
    fun acc m hhigh hlow => ?_⟩
  · rw [BitVec.signExtend, toInt_ofInt_mac]
  · simpa using wrapAdd_toInt acc m 0 (by omega) (by omega)
  · exact wrapAdd_toInt acc m (-1) (by omega) (by omega)
  · exact wrapAdd_toInt acc m 1 (by omega) (by omega)

end Sys2Proof.Proofs
end

section
/-! PROOFS. The accumulate instructions (spec/41_mac.md R110 to R113), all four at once: the set they
read, where a WC.STORE put it, and the operands whose contribution is known. -/

namespace Sys2Proof.Machine

variable (A B : Word) (k : Fin 4) (s : State) (set : WeightSet)

/-- ACC.MACk in the reference's terms, with the set as the model reads it. -/
theorem exec_macInstr_weightSet :
    exec (macInstr k A B) s = .next (s.accumulated A B (weightSet s.WCW k)) := by
  rw [exec_macInstr_accumulated, weightSet_eq_specSet]

/-! ### Contributions that are known -/

theorem specMac_zero_codebook : Spec.mac A B 0 set = 0 := by
  simp [Spec.mac, sbyte_zero]

theorem specMac_zero_operands (CB : Word) : Spec.mac 0 0 CB set = 0 := by
  simp [Spec.mac, sbyte_zero]

variable {A B k s}

/-- ACC.MACk with a contribution that is the same for every set. -/
theorem exec_macInstr_of_specMac (v : Word)
    (h : ∀ set, BitVec.ofInt 32 (Spec.mac A B s.CB set) = v) :
    exec (macInstr k A B) s = .next { s with ACC := s.ACC + v, held := some (s.ACC + v) } := by
  rw [exec_macInstr_accumulated, State.accumulated, BitVec.ofInt_add, BitVec.ofInt_toInt, h]

/-- A contribution 0 leaves the registers, and `ACC` is the response. -/
theorem exec_macInstr_of_specMac_eq_zero (h : ∀ set, Spec.mac A B s.CB set = 0) :
    exec (macInstr k A B) s = .next { s with held := some s.ACC } := by
  rw [exec_macInstr_of_specMac 0#32 fun set => congrArg _ (h set), BitVec.add_zero]

/-! ### The four instructions -/

variable (k)

/-- R110 to R113 for ACC.MACk, given the 16 bits of a WC.STORE's operands that are its set. -/
theorem accumulatesWithSet_macInstr {setFrom : Word → Word → BitVec 16}
    (hset : ∀ lo hi, weightSet (Spec.pair lo hi) k = setFrom lo hi) :
    AccumulatesWithSet (macInstr k) (packCommandWord 0b010 (macModifier k))
      (fun W => weightSet W k) setFrom := by
  refine ⟨fun A B => ⟨?_, encode_macInstr A B k⟩, fun A B s => exec_macInstr_weightSet A B k s,
    fun mod lo hi A B s => ?_, fun mod lo hi between s hops => ?_, fun A B s hCB => ?_, fun s => ?_,
    fun s hCB => ?_, fun s hCB => ?_⟩
  · exact (decodeCommand_ofFields _ _ A B).trans (decode_macModifier A B k)
  · rw [execAll_cons (exec_wcStore_pair mod lo hi s),
      execAll_cons (exec_macInstr_weightSet A B k _), ← hset]
    exact ⟨_, rfl, rfl⟩
  · obtain ⟨t, ht, hWCW⟩ := execAll_wcStore_cons mod lo hi s hops
    refine ⟨t, ht, fun A B => ?_⟩
    rw [exec_macInstr_weightSet, hWCW, hset]
  · exact exec_macInstr_of_specMac_eq_zero fun set => hCB ▸ specMac_zero_codebook A B set
  · exact exec_macInstr_of_specMac_eq_zero fun set => specMac_zero_operands set s.CB
  · exact exec_macInstr_of_specMac 0x00020000 fun set => by
      rw [hCB, ← mac_eq_specMac, mac_largest]; decide
  · exact exec_macInstr_of_specMac 0xFFFE0400 fun set => by
      rw [hCB, ← mac_eq_specMac, mac_smallest]; decide

end Sys2Proof.Machine

namespace Sys2Proof.Proofs

open Sys2Proof.Machine

/-- Settles O18: set 0 is the low half of `A`. -/
theorem accMac0AccumulatesSetZero : Obligations.AccMac0AccumulatesSetZero :=
  accumulatesWithSet_macInstr 0 fun lo hi => extractLsb'_pair_low lo hi (start := 0) (by decide)

/-- Settles O19: set 1 is the high half of `A`. -/
theorem accMac1AccumulatesSetOne : Obligations.AccMac1AccumulatesSetOne :=
  accumulatesWithSet_macInstr 1 fun lo hi => extractLsb'_pair_low lo hi (start := 16) (by decide)

/-- Settles O20: set 2 is the low half of `B`. -/
theorem accMac2AccumulatesSetTwo : Obligations.AccMac2AccumulatesSetTwo :=
  accumulatesWithSet_macInstr 2 fun lo hi => extractLsb'_pair_high lo hi (start := 32) (by decide)

/-- Settles O21: set 3 is the high half of `B`. -/
theorem accMac3AccumulatesSetThree : Obligations.AccMac3AccumulatesSetThree :=
  accumulatesWithSet_macInstr 3 fun lo hi => extractLsb'_pair_high lo hi (start := 48) (by decide)

end Sys2Proof.Proofs
end

section
/-! PROOFS. The accumulator over a sequence of commands (spec/41_mac.md R114), and the two operations
that clear and read it (R108, R115). -/

namespace Sys2Proof.Machine

/-- ACC.MACk adds one contribution, under the registers it finds. -/
theorem contributions_macInstr (k : Fin 4) (A B CB : Word) (is : List Instr) (WCW : WeightCodeWord) :
    contributions (macInstr k A B :: is) CB WCW =
      Spec.mac A B CB (Spec.set WCW k.val) :: contributions is CB WCW := by
  fin_cases k <;> rfl

/-- `ACC` with the contributions of the commands to come, modulo 2^32. -/
def State.accWith (s : State) (is : List Instr) : Word :=
  s.ACC + BitVec.ofInt 32 (contributions is s.CB s.WCW).sum

/-- An ACC.MACk moves its contribution from what is to come into `ACC`. -/
theorem accWith_accumulate (k : Fin 4) (A B : Word) (is : List Instr) (s : State) :
    (s.accumulate k A B).accWith is = s.accWith (macInstr k A B :: is) := by
  rw [State.accWith, State.accWith, contributions_macInstr, List.sum_cons, accumulate_ACC_eq_add,
    State.accumulate_CB, State.accumulate_WCW, BitVec.ofInt_add, BitVec.add_assoc]

/-- Every command but ACC.RESET keeps the sum of `ACC` and the contributions to come: the loads
contribute nothing and give the later ones their registers. -/
theorem accWith_of_exec {i : Instr} {s t : State} (is : List Instr) (hop : i.op ≠ .accReset)
    (h : exec i s = .next t) : t.accWith is = s.accWith (i :: is) := by
  cases i with
  | accReset => exact absurd rfl hop
  | cbStore | wcNop | accRead | noSel => cases h; rfl
  | wcStore mod A B => rw [exec_wcStore_pair] at h; cases h; rfl
  | accMac0 A B => cases h; exact accWith_accumulate 0 A B is s
  | accMac1 A B => cases h; exact accWith_accumulate 1 A B is s
  | accMac2 A B => cases h; exact accWith_accumulate 2 A B is s
  | accMac3 A B => cases h; exact accWith_accumulate 3 A B is s

/-- A sequence without ACC.RESET adds all its contributions. -/
theorem execAll_ACC_eq_accWith (is : List Instr) (s : State) (hops : ∀ i ∈ is, i.op ≠ .accReset) :
    ∃ t, execAll is s = .next t ∧ t.ACC = s.accWith is := by
  induction is generalizing s with
  | nil => exact ⟨s, rfl, (BitVec.add_zero s.ACC).symm⟩
  | cons i is ih =>
    obtain ⟨hop, hrest⟩ := List.forall_mem_cons.mp hops
    obtain ⟨u, hu, -⟩ := exec_next i s
    obtain ⟨t, ht, hACC⟩ := ih u hrest
    exact ⟨t, (execAll_cons hu).trans ht, hACC.trans (accWith_of_exec is hop hu)⟩

end Sys2Proof.Machine

namespace Sys2Proof.Proofs

open Sys2Proof.Machine

/-- Settles O31: ACC.RESET leaves 0 to add the contributions to, and keeps `CB` and `WCW`. -/
theorem accumulationIsAdditive : Obligations.AccumulationIsAdditive := by
  intro A B is s hops
  obtain ⟨t, ht, hACC⟩ := execAll_ACC_eq_accWith is ((s.setACC 0).result 0) hops
  exact ⟨t, (execAll_cons (exec_accReset A B s)).trans ht, hACC.trans (BitVec.zero_add _)⟩

/-- Settles O17: the decoder's row and ACC.RESET's equation, which is the same in the state it leaves
and for all operands. -/
theorem accResetClearsOnlyAccumulator : Obligations.AccResetClearsOnlyAccumulator := by
  intro A B s
  refine ⟨(decodeCommand_ofFields _ _ _ _).trans (decode_accReset A B), exec_accReset A B s,
    fun A' B' => ?_⟩
  rw [execAll_cons (exec_accReset A B s), execAll_cons (exec_accReset A B s),
    execAll_cons (exec_accReset A' B' _)]
  rfl

/-- Settles O22: the decoder's default arm of selector 2, and ACC.READ's equation, in which neither
the modifier nor an operand stands. -/
theorem accReadReturnsAccumulator : Obligations.AccReadReturnsAccumulator := by
  refine ⟨fun mod A B h8 h16 h17 h18 h19 =>
      decode_accRead A B (not_mem_listedAccModifiers h8 (by bv_omega)),
    fun mod A B s => ⟨exec_accRead mod A B s, ?_⟩⟩
  rw [exec_accRead, exec_accRead]

end Sys2Proof.Proofs
end

section
/-! PROOFS. The complete step function, and what each command reads and writes
(spec/42_default.md R140, R145, R146). -/

namespace Sys2Proof.Machine

/-- The operations that write `ACC`, as R146 lists them. -/
theorem writesACC_iff_mem {o : Op} :
    writesACC o = true ↔ o ∈ [Op.accReset, .accMac0, .accMac1, .accMac2, .accMac3] := by
  simp [writesACC, or_assoc]

/-- Only ACC.RESET and ACC.MACk change `ACC` (R146). -/
theorem exec_keeps_ACC {i : Instr} {s t : State}
    (hop : i.op ∉ [.accReset, .accMac0, .accMac1, .accMac2, .accMac3]) (h : exec i s = .next t) :
    t.ACC = s.ACC := by
  obtain ⟨-, -, hwrites⟩ := writer_of_exec_changes h
  by_contra hne
  exact hop (writesACC_iff_mem.mp (hwrites hne))

/-- Every command leaves a response held (R10). -/
theorem held_of_exec {i : Instr} {s t : State} (h : exec i s = .next t) : t.held.isSome = true := by
  cases i <;> cases h <;> rfl

/-- The value an accumulate step leaves, in `ACC` and as its response, is the same from two states
with the same `CB`, `ACC` and weight-code set `k`. -/
theorem accumulate_congr (k : Fin 4) (A B : Word) {s s' : State} (hCB : s.CB = s'.CB)
    (hACC : s.ACC = s'.ACC) (hset : weightSet s.WCW k = weightSet s'.WCW k) :
    (s.accumulate k A B).ACC = (s'.accumulate k A B).ACC ∧
      (s.accumulate k A B).held = (s'.accumulate k A B).held := by
  simp only [State.accumulate_ACC, State.accumulate_held, hCB, hACC, hset, and_self]

end Sys2Proof.Machine

namespace Sys2Proof.Proofs

open Sys2Proof.Machine

/-- Settles O24: the branches of the decoder against those of the reference, `exec_decode`. -/
theorem execRefinesStepFunction : Obligations.ExecRefinesStepFunction :=
  exec_decode

/-- Settles O25: one frame lemma per register, and the interface fields of `exec_next`. -/
theorem eachCommandWritesOnlyItsRegister : Obligations.EachCommandWritesOnlyItsRegister := by
  intro i s t h
  obtain ⟨u, hu, hinputs, hresponses⟩ := exec_next i s
  obtain rfl : u = t := Host.Outcome.next.inj (hu.symm.trans h)
  exact ⟨(exec_keeps_CB · h), (exec_keeps_WCW · h), (exec_keeps_ACC · h), hresponses, hinputs,
    held_of_exec h⟩

/-- Settles O27: the accumulate step of both states, whose values agree by `accumulate_congr`. -/
theorem macReadsOnlyItsSet : Obligations.MacReadsOnlyItsSet :=
  fun k A B s s' hCB hACC hset =>
    ⟨_, _, exec_macInstr A B s k, exec_macInstr A B s' k, accumulate_congr k A B hCB hACC hset⟩

/-- Settles O23: the five selectors are those from 3 on, the decoder's last row, and NOSEL's equation
names neither the modifier nor an operand. -/
theorem noSelReturnsZero : Obligations.NoSelReturnsZero :=
  ⟨fun _ _ A B hsel => decode_noSel A B (by bv_omega),
    fun sel mod A B s => exec_noSel mod sel A B s⟩

end Sys2Proof.Proofs
end

section
/-! PROOFS. Nothing stops and nothing happens unasked (spec/60_exceptions.md): every step and run answers
a next state (R150, R152), a turn without a transfer changes nothing (R153, R156), and a step of one
engine leaves every other engine as it was (R163). -/

namespace Sys2Proof.Machine

/-- Every kind of turn answers a next state. -/
theorem exists_step_eq_next (s : State) : ∃ t, step s = .next t := by
  cases hturn : s.turn with
  | quiet => exact ⟨_, step_of_quiet hturn⟩
  | reset => exact ⟨_, step_of_reset hturn⟩
  | respond r => exact ⟨_, step_of_respond hturn⟩
  | accept c =>
    obtain ⟨t, hexec, -, -⟩ := exec_next (decodeCommand c) s.endTurn
    exact ⟨t, (step_of_accept hturn).trans hexec⟩

/-- No step stops a run. -/
theorem safeRun (n : Nat) (s : State) : SafeRun n s := by
  induction n generalizing s with
  | zero => exact ⟨s, runSteps_zero s⟩
  | succ n ih =>
    obtain ⟨t, hstep⟩ := exists_step_eq_next s
    obtain ⟨u, hrun⟩ := ih t
    exact ⟨u, (runSteps_succ n hstep).trans hrun⟩

/-- With nothing driven, the end of a turn removes nothing. -/
theorem endTurn_of_no_input {s : State} (h : s.inputs = []) : s.endTurn = s := by
  rw [State.endTurn, h, List.tail_nil, ← h]

/-- No reset and no transfer: no command for an idle engine, or a host not ready for the held
response. -/
theorem turn_of_no_transfer {s : State} {inp : HostInput} {rest : List HostInput}
    (h : s.inputs = inp :: rest) (hr : inp.reset = false)
    (hno : (s.held = none ∧ inp.cmd = none) ∨ (s.held ≠ none ∧ inp.rspReady = false)) :
    s.turn = .quiet := by
  obtain ⟨hidle, hcmd⟩ | ⟨hheld, hready⟩ := hno
  · exact turn_of_idle h hr hidle hcmd
  · obtain ⟨r, hheld⟩ := Option.ne_none_iff_exists'.mp hheld
    exact turn_of_stall h hr hheld hready

section EngineArray

variable {sys : EngineArray} {k : Nat}

/-- An index with no engine changes nothing. -/
theorem EngineArray.stepAt_of_no_engine (h : sys[k]? = none) : sys.stepAt k = .next sys := by
  rw [EngineArray.stepAt, h]

/-- A step of engine `k` replaces that engine by its own next state. -/
theorem EngineArray.stepAt_of_step {s t : State} (h : sys[k]? = some s) (hstep : step s = .next t) :
    sys.stepAt k = .next (sys.set k t) := by
  simp only [EngineArray.stepAt, h, hstep]

end EngineArray

end Sys2Proof.Machine

namespace Sys2Proof.Proofs

open Sys2Proof.Machine

/-- Settles O33: every meaning answers a next state, and so does every kind of turn. -/
theorem noCommandAndNoRunStops : Obligations.NoCommandAndNoRunStops := by
  refine ⟨fun i s => ?_, safeRun⟩
  obtain ⟨t, hexec, -, -⟩ := exec_next i s
  exact ⟨t, hexec⟩

/-- Settles O48: the step of engine `k` is a list update at `k`, or nothing when there is no such
engine. -/
theorem enginesShareNoState : Obligations.EnginesShareNoState := by
  refine ⟨fun sys k => ?_, List.length_replicate, fun s => List.eq_of_mem_replicate⟩
  cases hk : sys[k]? with
  | none =>
    exact ⟨sys, EngineArray.stepAt_of_no_engine hk, rfl, fun _ _ => rfl, fun _ h => nomatch h⟩
  | some s =>
    obtain ⟨t, hstep⟩ := exists_step_eq_next s
    refine ⟨sys.set k t, EngineArray.stepAt_of_step hk hstep, List.length_set,
      fun j hj => List.getElem?_set_ne hj.symm, fun s' hs' => ?_⟩
    cases hs'
    obtain ⟨hlt, -⟩ := List.getElem?_eq_some_iff.mp hk
    exact ⟨t, hstep, List.getElem?_set_self hlt⟩

/-- Settles O39: each of the three is a quiet turn, which only removes that turn's input. -/
theorem quietTurnChangesNothing : Obligations.QuietTurnChangesNothing := by
  refine ⟨fun s hin => ?_, fun s inp rest hin hr hno => ?_⟩
  · rw [step_of_quiet (turn_of_no_input hin), endTurn_of_no_input hin]
  · rw [step_of_quiet (turn_of_no_transfer hin hr hno), endTurn_eq_of_inputs hin]

end Sys2Proof.Proofs
end

section
/-! PROOFS. Reset, the stalled engine and the held response (spec/70_reset_and_hazards.md R170 to R174,
R180 to R185). -/

namespace Sys2Proof.Machine

variable {s t : State}

/-! ### The held response and the registers -/

/-- With nothing held there is nothing to reflect. -/
theorem heldReflectsRegisters_of_idle (h : s.held = none) : s.HeldReflectsRegisters :=
  fun _ hr => nomatch h.symm.trans hr

/-- Every command's response is 0 or what the register its operation writes or reads then holds. -/
theorem heldReflectsRegisters_of_exec {i : Instr} (h : exec i s = .next t) :
    t.HeldReflectsRegisters := by
  intro r hr
  cases i with
  | wcNop | accReset | noSel => cases h; cases hr; exact .inl rfl
  | cbStore => cases h; cases hr; exact .inr (.inl rfl)
  | wcStore => cases h; cases hr; exact .inr (.inr (.inl rfl))
  | accMac0 | accMac1 | accMac2 | accMac3 | accRead =>
    cases h; cases hr; exact .inr (.inr (.inr rfl))

/-- Every turn keeps the invariant: a quiet turn touches neither a register nor the held response, a
reset and a transfer leave the engine idle, and a command sets both. -/
theorem step_keeps_heldReflectsRegisters (hs : s.HeldReflectsRegisters) (h : step s = .next t) :
    t.HeldReflectsRegisters := by
  obtain ⟨-, rfl⟩ | ⟨-, rfl⟩ | ⟨r, -, -, rfl⟩ | ⟨c, -, -, hexec⟩ := step_cases h
  · exact hs
  · exact heldReflectsRegisters_of_idle (State.hardwareReset_held _)
  · exact heldReflectsRegisters_of_idle (State.transferResponse_held _ r)
  · exact heldReflectsRegisters_of_exec hexec

/-! ### The stalled engine -/

/-- Any number of stalled turns only remove their inputs; turns past the last input remove none. -/
theorem runSteps_of_stall (n : Nat) (hheld : s.held ≠ none)
    (hstall : ∀ inp ∈ s.inputs.take n, inp.reset = false ∧ inp.rspReady = false) :
    runSteps n s = .next { s with inputs := s.inputs.drop n } := by
  obtain ⟨hundriven, hquiet⟩ := Proofs.quietTurnChangesNothing
  induction n generalizing s with
  | zero => rfl
  | succ n ih =>
    cases hin : s.inputs with
    | nil =>
      rw [runSteps_succ n (hundriven s hin), ih hheld (by simp [hin]), hin, List.drop_nil,
        List.drop_nil]
    | cons inp rest =>
      rw [hin, List.take_succ_cons] at hstall
      obtain ⟨⟨hr, hready⟩, hrest⟩ := List.forall_mem_cons.mp hstall
      rw [runSteps_succ n (hquiet s inp rest hin hr (.inr ⟨hheld, hready⟩))]
      exact ih (s := { s with inputs := rest }) hheld hrest

/-- However long the host stalls, the held response is transferred in the turn in which it is ready. -/
theorem runSteps_of_stall_then_ready {stall rest : List HostInput} {last : HostInput} {r : Word}
    (h : s.inputs = stall ++ last :: rest) (hheld : s.held = some r)
    (hstall : ∀ inp ∈ stall, inp.reset = false ∧ inp.rspReady = false)
    (hr : last.reset = false) (hready : last.rspReady = true) :
    runSteps (stall.length + 1) s =
      .next { s with held := none, responses := s.responses ++ [r], inputs := rest } := by
  have hrun := runSteps_of_stall stall.length (Option.ne_none_iff_exists'.mpr ⟨r, hheld⟩)
    (by rwa [h, List.take_left])
  rw [h, List.drop_left] at hrun
  rw [runSteps_add _ _ hrun]
  exact runSteps_succ 0 (Proofs.readyHostTakesHeldResponse _ last rest r rfl hr hheld hready)

end Sys2Proof.Machine

namespace Sys2Proof.Proofs

open Sys2Proof.Machine

/-- Settles O47: by the kinds of turn. -/
theorem heldResponseReflectsRegistersKept : Obligations.HeldResponseReflectsRegistersKept :=
  fun _ _ => step_keeps_heldReflectsRegisters

/-- Settles O46: nothing is held at reset. -/
theorem heldResponseReflectsRegistersAtReset : Obligations.HeldResponseReflectsRegistersAtReset :=
  heldReflectsRegisters_of_idle rfl

/-- Settles O32: every centroid is 0, so the contribution is 0 whatever the set and the operands. -/
theorem zeroCodebookAddsNothing : Obligations.ZeroCodebookAddsNothing :=
  fun _ A B _ hCB => exec_macInstr_of_specMac_eq_zero fun set => hCB ▸ specMac_zero_codebook A B set

/-- Settles O40: by induction on the number of stalled turns. -/
theorem stalledEngineAcceptsNothing : Obligations.StalledEngineAcceptsNothing :=
  fun n _ => runSteps_of_stall n

/-- Settles O41: the command commits in its own turn, the stalled turns change nothing, and the ready
host's turn transfers the response. -/
theorem acceptedCommandGetsItsResponse : Obligations.AcceptedCommandGetsItsResponse := by
  intro s first last stall rest c hidle hin hr hcmd hstall hlast hready
  have haccept := (step_of_offer hin hr hidle hcmd).trans (exec_decodeCommand _ c)
  rw [runSteps_succ _ haccept, runSteps_of_stall_then_ready rfl rfl hstall hlast hready]
  exact congrArg _ (State.eq_of_fields rfl rfl rfl hidle.symm rfl rfl)

/-- Settles O36: the reset state is written out. -/
theorem resetStateIsAllZero : Obligations.ResetStateIsAllZero :=
  ⟨rfl, rfl, rfl, rfl, rfl, rfl⟩

/-- Settles O37: an asserted reset is the turn, whatever else is driven. -/
theorem hardwareResetAbandonsCommand : Obligations.HardwareResetAbandonsCommand := by
  intro s inp rest hin hr
  rw [step_of_reset (turn_of_reset hin hr), endTurn_eq_of_inputs hin]
  rfl

end Sys2Proof.Proofs
end
